-- ==== Sys2Proof/Word.lean ====
section
/-! DEFINITION. The word type of FISC, the 8-bit byte (00_scope.md R9, R15). An instruction address is an index into the Program, a Nat (10_state.md R25, R26; 20_memory.md R50). -/

namespace Sys2Proof

/-- One register value or one instruction: 8 bits, unsigned (00_scope.md R9, R15; 30_encoding.md R70). -/
abbrev Byte := BitVec 8

end Sys2Proof
end

