-- ==== Sys2Proof/Config.lean ====
section
/-! DEFINITION. What is fixed for the machine: the parameters of 00_scope.md R9, the reset values of 70_reset_and_hazards.md, and the one free value. -/

namespace Sys2Proof.Config

/-- A branch target is 6 bits wide: the addresses below this one (00_scope.md R9, 30_encoding.md R73). -/
abbrev branchTargetBound : Nat := 64

/-- What every general register holds after reset (70_reset_and_hazards.md R171; the spec's own decision D3, log 8). -/
abbrev resetRegister : Byte := 0x00

/-- Z after reset (70_reset_and_hazards.md R172; the spec's own decision D4, log 8). -/
abbrev resetZ : Bool := false

/-- The program counter after reset: the entry point (70_reset_and_hazards.md R173; the spec's own decision D5, log 8). -/
abbrev resetPc : Nat := 0

/-- The cycle counter after reset (70_reset_and_hazards.md R174; the spec's own decision D6, log 8). -/
abbrev resetCycles : Nat := 0

/-- DESIGN CHOICE, log 1: the budget State.reset holds before a host has fixed one. The spec gives B no value (92_eei_decisions.md D9, 91_not_in_source.md N12). Unsafe. -/
abbrev unconfiguredBudget : Nat := 0

/-- FREE VALUE, log 11: what the ALU's output y shows while the opcode is 11. Any value, and ignored, because a BNZ writes no register and no flag (41_alu.md R120, 92_eei_decisions.md D14, X7). -/
opaque aluBranchOutput : Byte → Byte → Byte

end Sys2Proof.Config
end

