-- ==== Sys2Proof/Syntax.lean ====
section
/-! DEFINITION. The instructions, one constructor per row of spec/opcode_table.json (00_scope.md R3). -/

namespace Sys2Proof

/-- The four general registers (10_state.md R20). They have no aliases and none is hard-wired (R21). -/
inductive Reg where
  | r0
  | r1
  | r2
  | r3
deriving DecidableEq, Repr

/-- The four instructions of the source's sum type, `Add{rd,rn,rm}`, `And{rd,rn,rm}`, `Not{rd,rn}` and `Bnz{target: address}` (00_scope.md R3). -/
inductive Instr where
  /-- `add rd rn rm` (41_alu.md R123). -/
  | add (rd rn rm : Reg)
  /-- `and rd rn rm` (41_alu.md R124). -/
  | and (rd rn rm : Reg)
  /-- `not rd rn` (41_alu.md R125). -/
  | not (rd rn : Reg)
  /-- `bnz target`, the target an address (42_branch.md R140). It can be encoded only below 64: see Instr.wellFormed. -/
  | bnz (target : Nat)
deriving DecidableEq, Repr

end Sys2Proof
end

