-- ==== Sys2Proof/WellFormed.lean ====
section
/-! DEFINITION. When an instruction can be encoded, and when a program's branches stay inside it. -/

namespace Sys2Proof

/-- An instruction has an encoding. Register operands always do; a branch target does when it fits in 6 bits (30_encoding.md R73). -/
def Instr.wellFormed : Instr → Bool
  | .add _ _ _ => true
  | .and _ _ _ => true
  | .not _ _ => true
  | .bnz target => decide (target < Config.branchTargetBound)

/-- A program the assembler can emit: every instruction has an encoding and every branch names an instruction of the program (30_encoding.md R84, 42_branch.md R143). The hardware does not ask this of a program (42_branch.md R140). -/
def Instr.wellFormedIn (programLength : Nat) : Instr → Bool
  | .add _ _ _ => true
  | .and _ _ _ => true
  | .not _ _ => true
  | .bnz target => decide (target < Config.branchTargetBound) && decide (target < programLength)

end Sys2Proof
end

