-- ==== Sys2Proof/Decode.lean ====
section
/-! DEFINITION. The decoder, total on every byte (30_encoding.md R70 to R78), and the encoder, from the same layouts (R71 to R73). -/

namespace Sys2Proof

/-- Register codes: register ri is the 2-bit number i (30_encoding.md R76). -/
def Reg.code : Reg → BitVec 2
  | .r0 => 0b00#2
  | .r1 => 0b01#2
  | .r2 => 0b10#2
  | .r3 => 0b11#2

/-- The register a 2-bit field selects (30_encoding.md R76). -/
def Reg.ofCode (c : BitVec 2) : Reg :=
  if c = 0b00#2 then .r0
  else if c = 0b01#2 then .r1
  else if c = 0b10#2 then .r2
  else .r3

/-- Bits 7-6 (30_encoding.md R70). -/
def opcodeField (instr : Byte) : BitVec 2 := instr.extractLsb' 6 2

/-- Bits 5-4 (30_encoding.md R70). -/
def rdField (instr : Byte) : BitVec 2 := instr.extractLsb' 4 2

/-- Bits 3-2 (30_encoding.md R70). -/
def rnField (instr : Byte) : BitVec 2 := instr.extractLsb' 2 2

/-- Bits 1-0 (30_encoding.md R70). -/
def rmField (instr : Byte) : BitVec 2 := instr.extractLsb' 0 2

/-- Bits 5-0, the branch target (30_encoding.md R73). -/
def targetField (instr : Byte) : BitVec 6 := instr.extractLsb' 0 6

/-- The instruction a byte is: the opcode alone selects it, and every opcode is assigned (30_encoding.md R74). NOT ignores bits 1-0 (R72; the spec's decision D15, log 7), and a target is zero-extended, neither scaled nor relative (R77). -/
def decodeByte (instr : Byte) : Instr :=
  if opcodeField instr = 0b00#2 then
    .add (Reg.ofCode (rdField instr)) (Reg.ofCode (rnField instr)) (Reg.ofCode (rmField instr))
  else if opcodeField instr = 0b01#2 then
    .and (Reg.ofCode (rdField instr)) (Reg.ofCode (rnField instr)) (Reg.ofCode (rmField instr))
  else if opcodeField instr = 0b10#2 then
    .not (Reg.ofCode (rdField instr)) (Reg.ofCode (rnField instr))
  else
    .bnz (targetField instr).toNat

/-- Why a list of bytes is no instruction. -/
inductive DecodeError where
  /-- There is no byte to decode. No byte value is illegal (30_encoding.md R78), so this is the only rejection. -/
  | noByte
deriving DecidableEq, Repr

/-- The first instruction of a list of bytes and the bytes after it. Every instruction is exactly one byte (30_encoding.md R70, R79). -/
def decode : List Byte → Except DecodeError (Instr × List Byte)
  | [] => .error .noByte
  | byte :: rest => .ok (decodeByte byte, rest)

/-- The 2-bit opcode of an instruction (30_encoding.md R74). -/
def Instr.opcode : Instr → BitVec 2
  | .add _ _ _ => 0b00#2
  | .and _ _ _ => 0b01#2
  | .not _ _ => 0b10#2
  | .bnz _ => 0b11#2

/-- The register an instruction writes, if it writes one (10_state.md R21). -/
def Instr.destination : Instr → Option Reg
  | .add rd _ _ => some rd
  | .and rd _ _ => some rd
  | .not rd _ => some rd
  | .bnz _ => none

/-- The four 2-bit fields put together, most significant first (30_encoding.md R70). -/
def packFields (opcode field1 field2 field3 : BitVec 2) : Byte := opcode ++ field1 ++ field2 ++ field3

/-- The byte of a well-formed instruction (30_encoding.md R71, R72, R73). NOT's third field is always zero. A target of 64 or more has no encoding: of an ill-formed instruction this is a byte without meaning, and the assembler refuses it (log 18). -/
def encodeByte : Instr → Byte
  | .add rd rn rm => packFields 0b00#2 rd.code rn.code rm.code
  | .and rd rn rm => packFields 0b01#2 rd.code rn.code rm.code
  | .not rd rn => packFields 0b10#2 rd.code rn.code 0b00#2
  | .bnz target => 0b11#2 ++ BitVec.ofNat 6 target

/-- The bytes of a well-formed instruction: one byte. -/
def encode (i : Instr) : List Byte := [encodeByte i]

/-- The first byte of a table word: its low nbits bits, every bit above them zero (log 20). -/
def tableByte (nbits w : Nat) : Byte := BitVec.ofNat 8 (w % 2 ^ nbits)

/-- What the decoder reads from an instruction whose bits are w, numbered as spec/opcode_table.json numbers them. -/
def decodeTableWord (nbits w : Nat) : Option Instr :=
  match decode [tableByte nbits w] with
  | .ok (i, _) => some i
  | .error _ => none

end Sys2Proof
end

