-- ==== Sys2Proof/Machine/State.lean ====
section
/-! DEFINITION. The state of the machine as plain data (10_state.md), with the parameters of a run (00_scope.md R10), and the reasons a step can stop. -/

namespace Sys2Proof.Machine

/-- The register file: four 8-bit registers (10_state.md R20). -/
structure RegFile where
  r0 : Byte
  r1 : Byte
  r2 : Byte
  r3 : Byte
deriving DecidableEq, Repr

/-- The run status (10_state.md R27). -/
inductive RunStatus where
  /-- The machine steps. -/
  | running
  /-- A fetch found pc at or beyond N. -/
  | haltedNormal
  /-- The cycle counter exceeded the budget. -/
  | haltedCycleLimit
deriving DecidableEq, Repr

/-- The contents of the instruction store as (address, byte) pairs: addresses strictly rising, no entry equal to what an unlisted address holds (Memory.wf in Ops.lean). -/
abbrev Memory := List Host.Cell

/-- Everything the spec gives the machine: the Machine State (10_state.md R20 to R28) and the parameters of the run, which no step changes (10_state.md R32, 20_memory.md R53; log 5). -/
structure State where
  /-- The general registers r0..r3. -/
  x : RegFile
  /-- The zero flag Z. -/
  z : Bool
  /-- The program counter: an index into the program, unbounded (R26). -/
  pc : Nat
  /-- The cycle counter: instructions executed since reset, unbounded (R28). -/
  cycles : Nat
  /-- The run status. -/
  status : RunStatus
  /-- IMEM, the loaded program's bytes. -/
  imem : Memory
  /-- IMEM_LEN, written N in the spec. -/
  imemLen : Nat
  /-- CYCLE_BUDGET, written B in the spec. -/
  budget : Nat
deriving DecidableEq, Repr

/-- Why a step stops the machine. -/
inductive Fault where
  /-- Raised by step alone, of a halted machine: it takes no step (40_execution_cycle.md R100, R108; 93_implementation_defined.md X15, `stuck`). It is not an exception of the hardware, which has none (60_exceptions.md R150), but the interface's way of saying that there is no next state. Safe (log 3). -/
  | halted
deriving DecidableEq, Repr

/-- Why an instruction has no meaning. -/
inductive Refusal where
  /-- Raised by exec alone, of an instruction not modelled yet. No arm of exec answers it. Safe. -/
  | notModelled (mnemonic : String)
deriving DecidableEq, Repr

/-- The machine right after reset, before any host has loaded a program: the Machine State at the values of 70_reset_and_hazards.md R171 to R175, no program (N = 0) and the budget of log 1. -/
def State.reset : State where
  x := { r0 := Config.resetRegister, r1 := Config.resetRegister, r2 := Config.resetRegister, r3 := Config.resetRegister }
  z := Config.resetZ
  pc := Config.resetPc
  cycles := Config.resetCycles
  status := .running
  imem := []
  imemLen := 0
  budget := Config.unconfiguredBudget

end Sys2Proof.Machine
end

