-- ==== Sys2Proof/Machine/Operands.lean ====
section
/-! DEFINITION. Reading and writing operands: the register file's two reads and one write (10_state.md R21, R23), and the branch target (30_encoding.md R77). -/

namespace Sys2Proof.Machine

/-- The value of a register (00_scope.md R14, `x[i]`). -/
def RegFile.get (x : RegFile) : Reg → Byte
  | .r0 => x.r0
  | .r1 => x.r1
  | .r2 => x.r2
  | .r3 => x.r3

/-- The register file with one register written (00_scope.md R14, `x[i] <- v`). No register is hard-wired (10_state.md R21). -/
def RegFile.set (x : RegFile) (r : Reg) (v : Byte) : RegFile :=
  match r with
  | .r0 => { x with r0 := v }
  | .r1 => { x with r1 := v }
  | .r2 => { x with r2 := v }
  | .r3 => { x with r3 := v }

/-- A register file that holds one value in all four registers. -/
def RegFile.all (v : Byte) : RegFile := { r0 := v, r1 := v, r2 := v, r3 := v }

/-- Read of a register operand (00_scope.md R14). -/
def State.readReg (s : State) (r : Reg) : Byte := s.x.get r

/-- Write of a register operand (00_scope.md R14). -/
def State.writeReg (s : State) (r : Reg) (v : Byte) : State := { s with x := s.x.set r v }

end Sys2Proof.Machine
end

