-- ==== Sys2Proof/Machine/Flags.lean ====
section
/-! DEFINITION. The one flag, Z (10_state.md R24), and the write-back of an ALU result with its flag (41_alu.md R122). -/

namespace Sys2Proof.Machine

/-- Whether a value is zero (41_alu.md R120, the ALU's output `zero`). -/
def zeroFlag (v : Byte) : Bool := v == 0#8

/-- Write of Z (00_scope.md R14). -/
def State.writeZ (s : State) (b : Bool) : State := { s with z := b }

/-- Write a result to x[rd], then set Z to whether x[rd] now holds zero (41_alu.md R122). -/
def State.writeResult (s : State) (rd : Reg) (v : Byte) : State :=
  (s.writeReg rd v).writeZ (zeroFlag ((s.writeReg rd v).readReg rd))

end Sys2Proof.Machine
end

