-- ==== Sys2Proof/Machine/Ops.lean ====
section
/-! DEFINITION. The named operations: the instruction store and its fetch (20_memory.md), the advance of pc, the count and the two halts (40_execution_cycle.md). The hardware takes no exception and has no return from one (60_exceptions.md R150, R154, R155), so no operation here does. -/

namespace Sys2Proof.Machine

/-- What an address the store does not list holds. The host loads every byte of a program (60_exceptions.md R161), so this is only how a loaded 0x00 is kept; of withFetchWord's gaps see log 6. -/
def Memory.unlisted : Byte := 0x00

/-- The canonical form of the store: addresses strictly rising, no entry equal to what an unlisted address holds. -/
abbrev Memory.wf (m : Memory) : Prop :=
  m.Pairwise (fun a b => a.1 < b.1) ∧ ∀ c ∈ m, c.2 ≠ Memory.unlisted

/-- The byte the store holds at an address. -/
def Memory.read : Memory → Nat → Byte
  | [], _ => Memory.unlisted
  | (b, v) :: rest, a => if a = b then v else Memory.read rest a

/-- A listed byte put before the rest of the store, or left out when an unlisted address holds the same. -/
def Memory.entry (a : Nat) (v : Byte) (rest : Memory) : Memory :=
  if v = Memory.unlisted then rest else (a, v) :: rest

/-- The store with one byte written, in canonical form. Only a host's load writes the store (20_memory.md R53). -/
def Memory.write : Memory → Nat → Byte → Memory
  | [], a, v => Memory.entry a v []
  | (b, w) :: rest, a, v =>
    if a < b then Memory.entry a v ((b, w) :: rest)
    else if a = b then Memory.entry a v rest
    else (b, w) :: Memory.write rest a v

/-- The store that holds the given bytes from an address on. -/
def Memory.ofBytes : Nat → List Byte → Memory
  | _, [] => []
  | base, v :: rest => Memory.entry base v (Memory.ofBytes (base + 1) rest)

/-- IFetch(a): defined for a < N, the byte loaded at index a, no side effect (20_memory.md R52). -/
def State.ifetch (s : State) (a : Nat) : Option Byte :=
  if a < s.imemLen then some (s.imem.read a) else none

/-- The sequential advance: pc + 1, with no wrap (40_execution_cycle.md R104). -/
def State.advance (s : State) : State := { s with pc := s.pc + 1 }

/-- A taken branch: pc holds the target and is not advanced (40_execution_cycle.md R104, 42_branch.md R141). -/
def State.jump (s : State) (target : Nat) : State := { s with pc := target }

/-- halt(reason): the run ends (00_scope.md R14, 40_execution_cycle.md R108). -/
def State.halt (s : State) (reason : RunStatus) : State := { s with status := reason }

/-- One more executed instruction (40_execution_cycle.md R105). -/
def State.countCycle (s : State) : State := { s with cycles := s.cycles + 1 }

/-- The budget check, strict: the run halts when the count exceeds B (40_execution_cycle.md R106, 90_conflicts.md C2). -/
def State.checkBudget (s : State) : State :=
  if s.budget < s.cycles then s.halt .haltedCycleLimit else s

/-- What follows every executed instruction: the count, then the budget check, in the same step (40_execution_cycle.md R105, R106). -/
def State.retire (s : State) : State := s.countCycle.checkBudget

/-- The halting fetch: pc is at or beyond N, the run ends normally and nothing is counted (40_execution_cycle.md R101). -/
def haltingFetch (s : State) : Host.Outcome State Fault Refusal := .next (s.halt .haltedNormal)

/-- The step of a halted machine: there is none (40_execution_cycle.md R108, 93_implementation_defined.md X15; log 3). -/
def haltedStep (_ : State) : Host.Outcome State Fault Refusal := .fault .halted

/-- Retire what an instruction's meaning answers. A fault or a refusal stands: nothing was executed. -/
def retireOutcome : Host.Outcome State Fault Refusal → Host.Outcome State Fault Refusal
  | .next t => .next t.retire
  | .fault r => .fault r
  | .refused r => .refused r

/-- The state with a program byte placed where the next fetch reads, the program long enough to hold it, and the machine running: what a host's load and start bring about (log 2). -/
def State.placeNextByte (s : State) (v : Byte) : State :=
  { s with
    imem := s.imem.write s.pc v
    imemLen := max s.imemLen (s.pc + 1)
    status := .running }

end Sys2Proof.Machine
end

