-- ==== Sys2Proof/Machine/Alu.lean ====
section
/-! DEFINITION. The three ALU instructions (41_alu.md). Every register is read before the write (00_scope.md R16, R179), the result and Z are written (R122), and pc advances (40_execution_cycle.md R104). -/

namespace Sys2Proof.Machine

/-- 8-bit wrapping addition, (a + b) mod 256; the carry is lost (41_alu.md R120, R121). -/
def aluAdd (a b : Byte) : Byte := a + b

/-- 8-bit bitwise and (41_alu.md R120). -/
def aluAnd (a b : Byte) : Byte := a &&& b

/-- 8-bit bitwise complement (41_alu.md R120). -/
def aluNot (a : Byte) : Byte := ~~~a

/-- An ALU instruction that has its result: write it and Z, then advance (41_alu.md R122, 40_execution_cycle.md R104). -/
def finishAlu (rd : Reg) (v : Byte) (s : State) : Host.Outcome State Fault Refusal :=
  .next (s.writeResult rd v).advance

/-- ADD (41_alu.md R123). -/
def execAdd (rd rn rm : Reg) (s : State) : Host.Outcome State Fault Refusal :=
  finishAlu rd (aluAdd (s.readReg rn) (s.readReg rm)) s

/-- AND (41_alu.md R124). -/
def execAnd (rd rn rm : Reg) (s : State) : Host.Outcome State Fault Refusal :=
  finishAlu rd (aluAnd (s.readReg rn) (s.readReg rm)) s

/-- NOT (41_alu.md R125). -/
def execNot (rd rn : Reg) (s : State) : Host.Outcome State Fault Refusal :=
  finishAlu rd (aluNot (s.readReg rn)) s

end Sys2Proof.Machine
end

