-- ==== Sys2Proof/Machine/Branch.lean ====
section
/-! DEFINITION. The one control transfer, BNZ (42_branch.md). -/

namespace Sys2Proof.Machine

/-- A BNZ is taken exactly when Z is false as it executes (42_branch.md R140). -/
def State.branchTaken (s : State) : Bool := !s.z

/-- BNZ: the target goes to pc when taken, with no further advance in this cycle (42_branch.md R140, R141). Z and the registers are unchanged, and no target faults. -/
def execBnz (target : Nat) (s : State) : Host.Outcome State Fault Refusal :=
  .next (if s.branchTaken then s.jump target else s.advance)

end Sys2Proof.Machine
end

