-- ==== Sys2Proof/Machine/Dispatch.lean ====
section
/-! DEFINITION. Execute: one meaning per instruction (40_execution_cycle.md R103). -/

namespace Sys2Proof.Machine

def exec (i : Instr) (s : State) : Host.Outcome State Fault Refusal :=
  match i with
  | .add rd rn rm => Sys2Proof.Machine.execAdd rd rn rm s
  | .and rd rn rm => Sys2Proof.Machine.execAnd rd rn rm s
  | .not rd rn => Sys2Proof.Machine.execNot rd rn s
  | .bnz target => Sys2Proof.Machine.execBnz target s

end Sys2Proof.Machine
end

