-- ==== Sys2Proof/Machine/Step.lean ====
section
/-! DEFINITION. One step: fetch, decode, execute, count and check, or the halting fetch (40_execution_cycle.md R100 to R109). -/

namespace Sys2Proof.Machine

/-- The step of 40_execution_cycle.md R109. A running machine fetches at pc: past the program it halts normally (R101), else it decodes (R102), executes (R103, R104), counts and checks the budget (R105, R106). A halted machine takes no step (R108). -/
def step (s : State) : Host.Outcome State Fault Refusal :=
  match s.status with
  | .running =>
    match s.ifetch s.pc with
    | none => haltingFetch s
    | some byte => retireOutcome (exec (decodeByte byte) s)
  | .haltedNormal => haltedStep s
  | .haltedCycleLimit => haltedStep s

/-- The state whose very next step runs the instruction of a table word: its byte placed at pc, the program long enough, the machine running (log 2). -/
def State.withFetchWord (s : State) (nbits w : Nat) : State := s.placeNextByte (tableByte nbits w)

end Sys2Proof.Machine
end

