-- ==== Sys2Proof/Machine/Text.lean ====
section
/-! DEFINITION. Text as lists of characters, for the two texts at the host's boundary: the object file (30_encoding.md R88) and the assembler's notation (R80). -/

namespace Sys2Proof.Machine

/-- A text, character by character. -/
abbrev Text := List Char

/-- The pieces of a text between the occurrences of a separator: one more piece than separators. -/
def splitAtChar (sep : Char) : Text → List Text
  | [] => [[]]
  | c :: rest =>
    if c = sep then [] :: splitAtChar sep rest
    else
      match splitAtChar sep rest with
      | [] => [[c]]
      | piece :: pieces => (c :: piece) :: pieces

/-- A list without its last piece when that piece is empty. -/
def dropLastEmpty : List Text → List Text
  | [] => []
  | [piece] => if piece = [] then [] else [piece]
  | piece :: next :: pieces => piece :: dropLastEmpty (next :: pieces)

/-- The lines of a text, split at line feeds; one final line feed makes no empty line (92_eei_decisions.md D18). DESIGN CHOICE, log 14: the line feed is the only line terminator. -/
def textLines (t : Text) : List Text := dropLastEmpty (splitAtChar '\n' t)

/-- A character trimmed at the ends of a line: space, tab or carriage return (30_encoding.md R81, 90_conflicts.md C4). -/
def isBlankChar (c : Char) : Bool := c == ' ' || c == '\t' || c == '\r'

/-- A text without blanks at either end. -/
def trimText (t : Text) : Text :=
  ((t.dropWhile isBlankChar).reverse.dropWhile isBlankChar).reverse

/-- Apply a function that can fail to every element, in order, and stop at the first failure. -/
def collect {α β ε : Type} (f : α → Except ε β) : List α → Except ε (List β)
  | [] => .ok []
  | a :: rest =>
    match f a with
    | .error e => .error e
    | .ok b =>
      match collect f rest with
      | .error e => .error e
      | .ok bs => .ok (b :: bs)

end Sys2Proof.Machine
end

