-- ==== Sys2Proof/Machine/Utf8.lean ====
section
/-! DEFINITION. A source file's bytes as text: UTF-8 (30_encoding.md R80). The spec names the encoding and does not describe it, so its form is that of the standard (log 21). -/

namespace Sys2Proof.Machine

/-- What a first byte says: how many continuation bytes follow, the bits it gives, and the least code point that may take that many. None for a byte that begins no character. -/
def utf8Lead (b : Nat) : Option (Nat × Nat × Nat) :=
  if b < 0x80 then some (0, b, 0)
  else if b < 0xC0 then none
  else if b < 0xE0 then some (1, b - 0xC0, 0x80)
  else if b < 0xF0 then some (2, b - 0xE0, 0x800)
  else if b < 0xF8 then some (3, b - 0xF0, 0x10000)
  else none

/-- A continuation byte: 10xxxxxx. -/
def isContinuation (b : Nat) : Bool := decide (0x80 ≤ b ∧ b < 0xC0)

/-- The character of a code point, if it is one and needed as many bytes as it had. -/
def utf8Char (least value : Nat) : Option Char :=
  if least ≤ value ∧ value.isValidChar then some (Char.ofNat value) else none

/-- A character put before a text, where both are there. -/
def consChar : Option Char → Option Text → Option Text
  | some c, some t => some (c :: t)
  | some _, none => none
  | none, _ => none

/-- Decode on, with `need` continuation bytes of a character outstanding, `value` its bits so far and `least` the least code point of its length. -/
def utf8From (need value least : Nat) : List Byte → Option Text
  | [] => if need = 0 then some [] else none
  | byte :: rest =>
    match need with
    | 0 =>
      match utf8Lead byte.toNat with
      | none => none
      | some (0, v, l) => consChar (utf8Char l v) (utf8From 0 0 0 rest)
      | some (n + 1, v, l) => utf8From (n + 1) v l rest
    | n + 1 =>
      if isContinuation byte.toNat then
        match n with
        | 0 => consChar (utf8Char least (value * 64 + byte.toNat % 64)) (utf8From 0 0 0 rest)
        | m + 1 => utf8From (m + 1) (value * 64 + byte.toNat % 64) least rest
      else none

/-- The text a list of bytes encodes; none if it is not UTF-8. -/
def utf8Decode (bytes : List Byte) : Option Text := utf8From 0 0 0 bytes

/-- The bytes of one character. -/
def utf8EncodeChar (c : Char) : List Byte :=
  if c.toNat < 0x80 then [BitVec.ofNat 8 c.toNat]
  else if c.toNat < 0x800 then
    [BitVec.ofNat 8 (0xC0 + c.toNat / 64), BitVec.ofNat 8 (0x80 + c.toNat % 64)]
  else if c.toNat < 0x10000 then
    [BitVec.ofNat 8 (0xE0 + c.toNat / 4096), BitVec.ofNat 8 (0x80 + c.toNat / 64 % 64), BitVec.ofNat 8 (0x80 + c.toNat % 64)]
  else
    [BitVec.ofNat 8 (0xF0 + c.toNat / 262144), BitVec.ofNat 8 (0x80 + c.toNat / 4096 % 64),
      BitVec.ofNat 8 (0x80 + c.toNat / 64 % 64), BitVec.ofNat 8 (0x80 + c.toNat % 64)]

/-- The bytes of a text. -/
def utf8Encode (t : Text) : List Byte := t.flatMap utf8EncodeChar

end Sys2Proof.Machine
end

