-- ==== Sys2Proof/Machine/Assembler.lean ====
section
/-! DEFINITION. The notation programs are written in and what it stands for (30_encoding.md R80 to R87). The assembler is not hardware; its two-pass algorithm is out of scope (00_scope.md R6), so a label's address is given here by the label table as a whole. Forms the source does not settle are refused (93_implementation_defined.md X8; log 15). -/

namespace Sys2Proof.Machine

/-- The mnemonics of the notation (30_encoding.md R81). -/
def validMnemonics : List Text := ["add".toList, "and".toList, "not".toList, "bnz".toList]

/-- Why a source text assembles to no program; all are fatal (30_encoding.md R86). -/
inductive AsmError where
  | duplicateLabel
  | undefinedLabel
  /-- The diagnostic names the valid mnemonics (30_encoding.md R86). -/
  | unknownMnemonic (valid : List Text)
  | invalidRegister
  | malformedOperandSeparator
  | branchTargetOutOfRange
  /-- The source file is not UTF-8 text, so it is no source (30_encoding.md R80); refused under the model's own name: safe (log 21). -/
  | notUtf8
  /-- A form the source does not settle, refused by the transcriber: safe (93_implementation_defined.md X8; log 15). -/
  | unsettledForm
deriving DecidableEq, Repr

/-- A line that holds an instruction: an optional label, then the mnemonic and its operands (30_encoding.md R80, R81). -/
structure SourceLine where
  label : Option Text
  mnemonic : Text
  operands : List Text
deriving DecidableEq, Repr

/-- Label names the model reads: a letter or an underscore, then letters, digits and underscores. DESIGN CHOICE, log 15: the source does not say which characters a name may hold (91_not_in_source.md N7), so others are refused. -/
def isLabelName : Text → Bool
  | [] => false
  | c :: rest => (c.isAlpha || c == '_') && rest.all (fun d => d.isAlphanum || d == '_')

/-- The mnemonic and operands of an instruction's text, its tokens one space apart. A comma is rejected (30_encoding.md R83); other white space between tokens is refused (90_conflicts.md C4, 92_eei_decisions.md D21). -/
def readInstruction (label : Option Text) (t : Text) : Except AsmError SourceLine :=
  if ',' ∈ t then .error .malformedOperandSeparator
  else
    match splitAtChar ' ' t with
    | [] => .error .unsettledForm
    | mnemonic :: operands =>
      if (mnemonic :: operands).any (fun token => token.isEmpty || token.any isBlankChar) then .error .unsettledForm
      else .ok { label := label, mnemonic := mnemonic, operands := operands }

/-- A source line: none if it is blank or only a comment (30_encoding.md R80, R85). -/
def readLine (line : Text) : Except AsmError (Option SourceLine) :=
  let code := trimText (line.takeWhile (· ≠ ';'))
  if code = [] then .ok none
  else if ':' ∈ code then
    let name := code.takeWhile (· ≠ ':')
    let rest := trimText ((code.dropWhile (· ≠ ':')).drop 1)
    if isLabelName name then (readInstruction (some name) rest).map some
    else .error .unsettledForm
  else (readInstruction none code).map some

/-- The token of a register (30_encoding.md R81). -/
def regToken : Reg → Text
  | .r0 => ['r', '0']
  | .r1 => ['r', '1']
  | .r2 => ['r', '2']
  | .r3 => ['r', '3']

/-- A register operand; an absent or empty one is r0 (30_encoding.md R82). A register name in upper case is refused: the source does not settle it (91_not_in_source.md N7). -/
def readRegister (token : Text) : Except AsmError Reg :=
  if token = [] then .ok .r0
  else if token = regToken .r0 then .ok .r0
  else if token = regToken .r1 then .ok .r1
  else if token = regToken .r2 then .ok .r2
  else if token = regToken .r3 then .ok .r3
  else if token = ['R', '0'] ∨ token = ['R', '1'] ∨ token = ['R', '2'] ∨ token = ['R', '3'] then .error .unsettledForm
  else .error .invalidRegister

/-- Register operands, at most as many as the mnemonic has, omitted ones r0 (30_encoding.md R82). Extra operands are refused (91_not_in_source.md N7). -/
def readRegisters (count : Nat) (operands : List Text) : Except AsmError (List Reg) :=
  if count < operands.length then .error .unsettledForm
  else collect readRegister (operands ++ List.replicate (count - operands.length) [])

/-- The addresses bound to labels, in program order (30_encoding.md R84). -/
abbrev LabelTable := List (Text × Nat)

/-- The label table of a program's lines, the first at the given address (30_encoding.md R84). -/
def labelTable : Nat → List SourceLine → LabelTable
  | _, [] => []
  | a, line :: rest =>
    match line.label with
    | none => labelTable (a + 1) rest
    | some name => (name, a) :: labelTable (a + 1) rest

/-- A branch to a label of the table: its address must be below 64 and below N (30_encoding.md R84, 90_conflicts.md C3). -/
def branchTo (labels : LabelTable) (programLength : Nat) (name : Text) : Except AsmError Instr :=
  match labels.lookup name with
  | none => .error .undefinedLabel
  | some a =>
    if Instr.wellFormedIn programLength (.bnz a) then .ok (.bnz a) else .error .branchTargetOutOfRange

/-- The instruction a line stands for (30_encoding.md R81). -/
def assembleLine (labels : LabelTable) (programLength : Nat) (line : SourceLine) : Except AsmError Instr :=
  if line.mnemonic = "add".toList then
    match readRegisters 3 line.operands with
    | .ok [rd, rn, rm] => .ok (.add rd rn rm)
    | .ok _ => .error .unsettledForm
    | .error e => .error e
  else if line.mnemonic = "and".toList then
    match readRegisters 3 line.operands with
    | .ok [rd, rn, rm] => .ok (.and rd rn rm)
    | .ok _ => .error .unsettledForm
    | .error e => .error e
  else if line.mnemonic = "not".toList then
    match readRegisters 2 line.operands with
    | .ok [rd, rn] => .ok (.not rd rn)
    | .ok _ => .error .unsettledForm
    | .error e => .error e
  else if line.mnemonic = "bnz".toList then
    match line.operands with
    | [name] => if isLabelName name then branchTo labels programLength name else .error .unsettledForm
    | _ => .error .unsettledForm
  else if validMnemonics.contains (line.mnemonic.map Char.toLower) then .error .unsettledForm
  else .error (.unknownMnemonic validMnemonics)

/-- The instructions of a program's lines. A label bound twice is an error (30_encoding.md R84). -/
def assembleLines (lines : List SourceLine) : Except AsmError (List Instr) :=
  let labels := labelTable 0 lines
  if (labels.map Prod.fst).Nodup then collect (assembleLine labels lines.length) lines
  else .error .duplicateLabel

/-- The lines of a source text that hold an instruction; blank and comment-only lines occupy no address (30_encoding.md R80). -/
def sourceLines (source : Text) : Except AsmError (List SourceLine) :=
  match collect readLine (textLines source) with
  | .error e => .error e
  | .ok lines => .ok (lines.filterMap id)

/-- The instructions a source text assembles to (30_encoding.md R81, R84). DESIGN CHOICE, log 15: of a text with several errors, an ill-formed line is reported before a label bound twice, and that before an instruction's own error. -/
def assemble (source : Text) : Except AsmError (List Instr) :=
  match sourceLines source with
  | .error e => .error e
  | .ok lines => assembleLines lines

/-- The program a source text assembles to, one byte an instruction (30_encoding.md R81). -/
def assembleProgram (source : Text) : Except AsmError (List Byte) :=
  (assemble source).map (fun instrs => instrs.map encodeByte)

/-- The program a source file assembles to: its bytes are UTF-8 text (30_encoding.md R80). -/
def assembleFile (source : List Byte) : Except AsmError (List Byte) :=
  match utf8Decode source with
  | none => .error .notUtf8
  | some text => assembleProgram text

end Sys2Proof.Machine
end

