-- ==== Sys2Proof/Machine/ObjectFile.lean ====
section
/-! DEFINITION. The host's program file: its text and its loader (30_encoding.md R88, 92_eei_decisions.md D18, 60_exceptions.md R151). -/

namespace Sys2Proof.Machine

/-- Why an object file gives no program, and so no run (60_exceptions.md R151). -/
inductive LoadError where
  /-- A line after the marker is not a byte in hexadecimal (30_encoding.md R88). -/
  | malformedObjectByte
  /-- The file has no line at all, so no marker line: outside D18's accepted form, refused (93_implementation_defined.md X9; log 14). -/
  | noMarkerLine
deriving DecidableEq, Repr

/-- The value of a hexadecimal digit, in either case (92_eei_decisions.md D18). -/
def hexDigit (c : Char) : Option Nat :=
  if 48 ≤ c.toNat ∧ c.toNat ≤ 57 then some (c.toNat - 48)
  else if 97 ≤ c.toNat ∧ c.toNat ≤ 102 then some (c.toNat - 87)
  else if 65 ≤ c.toNat ∧ c.toNat ≤ 70 then some (c.toNat - 55)
  else none

/-- The number hexadecimal digits write, read on from a value; none if one of them is no digit. -/
def hexValueFrom (value : Nat) : Text → Option Nat
  | [] => some value
  | c :: rest =>
    match hexDigit c with
    | none => none
    | some d => hexValueFrom (16 * value + d) rest

/-- A data line: one or more hexadecimal digits whose value is at most 255 (92_eei_decisions.md D18). -/
def parseByteLine (line : Text) : Except LoadError Byte :=
  match line with
  | [] => .error .malformedObjectByte
  | c :: rest =>
    match hexValueFrom 0 (c :: rest) with
    | none => .error .malformedObjectByte
    | some n => if n ≤ 255 then .ok (BitVec.ofNat 8 n) else .error .malformedObjectByte

/-- The program of an object file's lines: the first line is the marker and is not interpreted, the k-th line after it is IMEM[k-1] (30_encoding.md R88, 92_eei_decisions.md D18). -/
def parseObjectLines : List Text → Except LoadError (List Byte)
  | [] => .error .noMarkerLine
  | _ :: dataLines => collect parseByteLine dataLines

/-- The program of an object file. -/
def parseObject (file : Text) : Except LoadError (List Byte) := parseObjectLines (textLines file)

/-- The format marker (30_encoding.md R88). -/
def objectMarker : Text := "v2.0 raw".toList

/-- A lower-case hexadecimal digit (30_encoding.md R88). -/
def hexChar (n : Nat) : Char :=
  if n < 10 then Char.ofNat (48 + n) else Char.ofNat (87 + n)

/-- A byte as the producer writes it, in lower case (30_encoding.md R88). DESIGN CHOICE, log 14: always two digits, as in the object file of 95_test_vectors.md P4. -/
def renderByte (v : Byte) : Text := [hexChar (v.toNat / 16), hexChar (v.toNat % 16)]

/-- The object file of a program: the marker line, then one line a byte (30_encoding.md R88). -/
def renderObject (program : List Byte) : Text :=
  objectMarker ++ '\n' :: program.flatMap (fun v => renderByte v ++ ['\n'])

end Sys2Proof.Machine
end

