-- ==== Sys2Proof/Machine/Run.lean ====
section
/-! DEFINITION. The host interface: load, configure, start, run, trace, final readout (60_exceptions.md R161, R163, R165; 70_reset_and_hazards.md R170 to R176). -/

namespace Sys2Proof.Machine

/-- Load: the host puts the program into the store (60_exceptions.md R161, 70_reset_and_hazards.md R176). -/
def State.load (program : List Byte) (s : State) : State :=
  { s with imem := Memory.ofBytes 0 program, imemLen := program.length }

/-- Configure: the host fixes the budget B (60_exceptions.md R161). -/
def State.configure (budget : Nat) (s : State) : State := { s with budget := budget }

/-- Reset with the registers and Z at given values: the parameters INIT_REGS and INIT_Z of 93_implementation_defined.md X1 and X2. IMEM, N and B are not touched (70_reset_and_hazards.md R170). -/
def State.startWith (x : RegFile) (z : Bool) (s : State) : State :=
  { s with x := x, z := z, pc := Config.resetPc, cycles := Config.resetCycles, status := .running }

/-- Start: the reset of 70_reset_and_hazards.md R170 to R175. -/
def State.start (s : State) : State := s.startWith (RegFile.all Config.resetRegister) Config.resetZ

/-- The machine after load, configure and start, in the order of 70_reset_and_hazards.md R176. -/
def State.boot (program : List Byte) (budget : Nat) : State :=
  ((State.reset.load program).configure budget).start

/-- Run at most k steps, and no further than the halt (60_exceptions.md R165). -/
def State.runToHalt : Nat → State → State
  | 0, s => s
  | k + 1, s =>
    match step s with
    | .next t => State.runToHalt k t
    | .fault _ => s
    | .refused _ => s

/-- The whole run of a program. B + 2 steps are enough (40_execution_cycle.md R111). -/
def State.runProgram (program : List Byte) (budget : Nat) : State :=
  State.runToHalt (budget + 2) (State.boot program budget)

/-- What the host can see of the machine: the ports dbg_* and status (00_scope.md R12, 40_execution_cycle.md R113). -/
structure Observation where
  x : RegFile
  z : Bool
  pc : Nat
  cycles : Nat
  status : RunStatus
deriving DecidableEq, Repr

/-- The observation of a state (40_execution_cycle.md R113). -/
def State.observe (s : State) : Observation :=
  { x := s.x, z := s.z, pc := s.pc, cycles := s.cycles, status := s.status }

/-- The 2-bit code of a run status on its port; 11 is never produced (10_state.md R27; the spec's decision D20). -/
def RunStatus.code : RunStatus → BitVec 2
  | .running => 0b00#2
  | .haltedNormal => 0b01#2
  | .haltedCycleLimit => 0b10#2

/-- The outcome of a run: the halted state, once it is reached (60_exceptions.md R165). -/
def State.readout (s : State) : Option Observation :=
  match s.status with
  | .running => none
  | .haltedNormal => some s.observe
  | .haltedCycleLimit => some s.observe

/-- The trace: the state after each executed instruction, then the final halted state (92_eei_decisions.md D19; log 16). -/
def State.traceRun : Nat → State → List Observation
  | 0, _ => []
  | k + 1, s =>
    match step s with
    | .next t => t.observe :: State.traceRun k t
    | .fault _ => []
    | .refused _ => []

/-- What the host gets back from a run: the final readout, and the trace when it was asked for with -d (60_exceptions.md R161, R163). -/
structure HostResult where
  final : Option Observation
  trace : List Observation
deriving DecidableEq, Repr

/-- The simulator's run of an object file with a budget, traced or not. A file that does not load gives no run (60_exceptions.md R151, R161). -/
def State.hostRun (debug : Bool) (file : Text) (budget : Nat) : Except LoadError HostResult :=
  match parseObject file with
  | .error e => .error e
  | .ok program =>
    .ok
      { final := (State.runProgram program budget).readout
        trace := if debug then State.traceRun (budget + 2) (State.boot program budget) else [] }

/-- The process exit code: zero, or some other number the spec does not give (60_exceptions.md R161; log 17). -/
inductive ExitCode where
  | zero
  | nonzero
deriving DecidableEq, Repr

/-- The exit code: zero on success, a cycle-limited run among them, and nonzero on any fatal error (60_exceptions.md R161). -/
def exitCode {ε α : Type} : Except ε α → ExitCode
  | .ok _ => .zero
  | .error _ => .nonzero

end Sys2Proof.Machine
end

