-- ==== Sys2Proof/Machine/Datapath.lean ====
section
/-! DEFINITION. The clocked block: ports, decoder, register file, ALU and the edge (00_scope.md R12, 10_state.md R23, 30_encoding.md R75, 41_alu.md R120, 40_execution_cycle.md R112). It is a second description of the machine, with the PC and counter widths as parameters (92_eei_decisions.md D10, D11; log 10). -/

namespace Sys2Proof.Machine

/-- The decoder's outputs (30_encoding.md R75). -/
structure DecoderOut where
  op : BitVec 2
  rd : BitVec 2
  rn : BitVec 2
  rm : BitVec 2
  target : BitVec 6
  isAdd : Bool
  isAnd : Bool
  isNot : Bool
  isBnz : Bool
  regWe : Bool
  zWe : Bool
deriving DecidableEq, Repr

/-- The decoder, combinational (30_encoding.md R75). -/
def decoder (instr : Byte) : DecoderOut :=
  let op := opcodeField instr
  let isAdd := op == 0b00#2
  let isAnd := op == 0b01#2
  let isNot := op == 0b10#2
  let isBnz := op == 0b11#2
  { op := op
    rd := rdField instr
    rn := rnField instr
    rm := rmField instr
    target := targetField instr
    isAdd := isAdd
    isAnd := isAnd
    isNot := isNot
    isBnz := isBnz
    regWe := isAdd || isAnd || isNot
    zWe := isAdd || isAnd || isNot }

/-- The ALU's outputs (41_alu.md R120). -/
structure AluOut where
  y : Byte
  zero : Bool
deriving DecidableEq, Repr

/-- The ALU's output y. Under opcode 11 it is any value and ignored (41_alu.md R120; 92_eei_decisions.md D14; log 11). -/
def aluY (op : BitVec 2) (a b : Byte) : Byte :=
  if op = 0b00#2 then aluAdd a b
  else if op = 0b01#2 then aluAnd a b
  else if op = 0b10#2 then aluNot a
  else Config.aluBranchOutput a b

/-- The ALU, combinational (41_alu.md R120). -/
def alu (op : BitVec 2) (a b : Byte) : AluOut := { y := aluY op a b, zero := zeroFlag (aluY op a b) }

/-- A combinational read port of the register file: the value before this cycle's write (10_state.md R23). -/
def readPort (x : RegFile) (ra : BitVec 2) : Byte := x.get (Reg.ofCode ra)

/-- The register file's write port at the edge (10_state.md R23). -/
def writePort (x : RegFile) (we : Bool) (wa : BitVec 2) (wd : Byte) : RegFile :=
  if we then x.set (Reg.ofCode wa) wd else x

/-- The block's registers. -/
structure Block (pcW cntW : Nat) where
  x : RegFile
  z : Bool
  pc : BitVec pcW
  cycles : BitVec cntW
  status : RunStatus
deriving DecidableEq, Repr

/-- The block's input ports at an edge (00_scope.md R12). -/
structure BlockIn (pcW cntW : Nat) where
  rst : Bool
  imemData : Byte
  imemLen : BitVec pcW
  cycleBudget : BitVec cntW
deriving DecidableEq, Repr

/-- The block's output ports (00_scope.md R12). -/
structure BlockOut (pcW cntW : Nat) where
  imemAddr : BitVec pcW
  status : BitVec 2
  dbgRegs : RegFile
  dbgZ : Bool
  dbgPc : BitVec pcW
  dbgCycles : BitVec cntW
deriving DecidableEq, Repr

/-- The outputs, read off the registers (00_scope.md R12). -/
def Block.outputs {pcW cntW : Nat} (b : Block pcW cntW) : BlockOut pcW cntW :=
  { imemAddr := b.pc, status := b.status.code, dbgRegs := b.x, dbgZ := b.z, dbgPc := b.pc, dbgCycles := b.cycles }

/-- The synchronous reset (00_scope.md R12, 70_reset_and_hazards.md R171 to R175). -/
def Block.reset (pcW cntW : Nat) : Block pcW cntW :=
  { x := RegFile.all Config.resetRegister
    z := Config.resetZ
    pc := BitVec.ofNat pcW Config.resetPc
    cycles := BitVec.ofNat cntW Config.resetCycles
    status := .running }

/-- An edge that completes an instruction: every right-hand side reads the values from before it (40_execution_cycle.md R112). -/
def Block.commit {pcW cntW : Nat} (inp : BlockIn pcW cntW) (b : Block pcW cntW) : Block pcW cntW :=
  let d := decoder inp.imemData
  let out := alu d.op (readPort b.x d.rn) (readPort b.x d.rm)
  let taken := d.isBnz && !b.z
  { x := writePort b.x d.regWe d.rd out.y
    z := if d.zWe then out.zero else b.z
    pc := if taken then d.target.setWidth pcW else b.pc + 1#pcW
    cycles := b.cycles + 1#cntW
    status := if inp.cycleBudget < b.cycles + 1#cntW then .haltedCycleLimit else b.status }

/-- One rising edge of clk: reset when rst is high, else one step while running, else nothing (40_execution_cycle.md R112; log 12). -/
def Block.edge {pcW cntW : Nat} (inp : BlockIn pcW cntW) (b : Block pcW cntW) : Block pcW cntW :=
  if inp.rst then Block.reset pcW cntW
  else
    match b.status with
    | .running =>
      if inp.imemLen ≤ b.pc then { b with status := .haltedNormal } else Block.commit inp b
    | .haltedNormal => b
    | .haltedCycleLimit => b

/-- The block's registers hold the Machine State of s. -/
structure Block.Holds {pcW cntW : Nat} (b : Block pcW cntW) (s : State) : Prop where
  x : b.x = s.x
  z : b.z = s.z
  pc : b.pc.toNat = s.pc
  cycles : b.cycles.toNat = s.cycles
  status : b.status = s.status

/-- The inputs are those the parameters of s drive: N, B, and IMEM at pc wherever pc is below N; beyond it the data is any byte (00_scope.md R12). -/
structure BlockIn.DrivenBy {pcW cntW : Nat} (inp : BlockIn pcW cntW) (s : State) : Prop where
  imemLen : inp.imemLen.toNat = s.imemLen
  cycleBudget : inp.cycleBudget.toNat = s.budget
  imemData : s.pc < s.imemLen → inp.imemData = s.imem.read s.pc

/-- The widths under which nothing wraps: 2^PC_W > max(N, 63) and 2^CNT_W > B + 1 (92_eei_decisions.md D10, D11). -/
def WidthsSuffice (pcW cntW : Nat) (s : State) : Prop :=
  max s.imemLen 63 < 2 ^ pcW ∧ s.budget + 1 < 2 ^ cntW

end Sys2Proof.Machine
end

