-- ==== Sys2Proof/Machine/Pseudocode.lean ====
section
/-! DEFINITION. The step as 40_execution_cycle.md R109 writes it: natural numbers only, the byte split by division, no operation shared with the machine. It is there to be compared with step. -/

namespace Sys2Proof.Machine

/-- R109's variables: x as four naturals, Z, pc, cycles, status. -/
structure PseudoState where
  x : List Nat
  z : Bool
  pc : Nat
  cycles : Nat
  status : RunStatus
deriving DecidableEq, Repr

/-- A machine state in R109's variables. -/
def State.toPseudo (s : State) : PseudoState :=
  { x := [s.x.r0.toNat, s.x.r1.toNat, s.x.r2.toNat, s.x.r3.toNat]
    z := s.z
    pc := s.pc
    cycles := s.cycles
    status := s.status }

/-- The `case op of` of R109: x, Z, pc and `taken` after an instruction. -/
def pseudoExecute (instr : Nat) (p : PseudoState) : PseudoState × Bool :=
  let op := instr / 64 % 4
  let rd := instr / 16 % 4
  let xn := p.x.getD (instr / 4 % 4) 0
  let xm := p.x.getD (instr % 4) 0
  let target := instr % 64
  let assign (v : Nat) : PseudoState × Bool := ({ p with x := p.x.set rd v, z := decide (v = 0) }, false)
  if op = 0 then assign ((xn + xm) % 256)
  else if op = 1 then assign (xn &&& xm)
  else if op = 2 then assign (255 - xn)
  else if p.z = false then ({ p with pc := target }, true)
  else (p, false)

/-- `if not taken: pc <- pc + 1`, then the count and the budget check of R109. -/
def pseudoAdvance (budget : Nat) (p : PseudoState) (taken : Bool) : PseudoState :=
  { p with
    pc := if taken then p.pc else p.pc + 1
    cycles := p.cycles + 1
    status := if p.cycles + 1 > budget then .haltedCycleLimit else p.status }

/-- The step of R109, of a running machine, with IMEM, N and B as arguments. -/
def pseudoStep (imem : Nat → Nat) (imemLen budget : Nat) (p : PseudoState) : PseudoState :=
  if p.pc ≥ imemLen then { p with status := .haltedNormal }
  else
    let executed := pseudoExecute (imem p.pc) p
    pseudoAdvance budget executed.1 executed.2

end Sys2Proof.Machine
end

