-- ==== Sys2Proof/Safety.lean ====
section
/-! DEFINITION. What claims about runs are said in: the invariant of a run, reachability, and the run of a program as if it had no budget (40_execution_cycle.md R110). -/

namespace Sys2Proof.Machine

/-- What holds of every state of a run (10_state.md R26, R27, R28; 60_exceptions.md R165). -/
structure Inv (s : State) : Prop where
  /-- The store is in canonical form. -/
  storeCanonical : s.imem.wf
  /-- The store lists no address outside the program (20_memory.md R50). -/
  storeInProgram : ∀ c ∈ s.imem, c.1 < s.imemLen
  /-- The largest reachable pc is max(N, 63) (10_state.md R26). -/
  pcBounded : s.pc ≤ max s.imemLen 63
  /-- A running machine has not exceeded its budget (40_execution_cycle.md R106). -/
  withinBudget : s.status = .running → s.cycles ≤ s.budget
  /-- HALTED_NORMAL: a fetch found pc >= N, within the budget (40_execution_cycle.md R101, R110). -/
  normalHalt : s.status = .haltedNormal → s.imemLen ≤ s.pc ∧ s.cycles ≤ s.budget
  /-- HALTED_CYCLE_LIMIT: exactly B + 1 instructions executed (60_exceptions.md R165). -/
  cycleLimitHalt : s.status = .haltedCycleLimit → s.cycles = s.budget + 1

/-- The states k steps lead to. -/
inductive StepsTo : State → Nat → State → Prop where
  | refl (s : State) : StepsTo s 0 s
  | tail {s t u : State} {k : Nat} : StepsTo s k t → step t = .next u → StepsTo s (k + 1) u

/-- One instruction of a program as if there were no budget: executed and counted, never cut off. Past the program nothing happens (40_execution_cycle.md R110). -/
def State.freeStep (s : State) : State :=
  match s.ifetch s.pc with
  | none => s
  | some byte =>
    match exec (decodeByte byte) s with
    | .next t => t.countCycle
    | .fault _ => s
    | .refused _ => s

/-- The first k instructions as if there were no budget. -/
def State.freeRun (s : State) : Nat → State
  | 0 => s
  | k + 1 => (s.freeRun k).freeStep

/-- The program executes exactly k instructions before its fetch finds pc >= N: the K of 40_execution_cycle.md R110. -/
def State.EndsAfter (s : State) (k : Nat) : Prop :=
  s.imemLen ≤ (s.freeRun k).pc ∧ ∀ j < k, (s.freeRun j).pc < s.imemLen

end Sys2Proof.Machine
end

