-- ==== Sys2Proof/Certificates/Slice0/Obligations.lean ====
section
/-! DEFINITION. The statements for the provers, from the numbered rules of spec/. -/

open Sys2Proof Sys2Proof.Machine

/-! ### Instructions -/

/-- 41_alu.md R123, whole: syntax, encoding (match 0x00, mask 0xC0), the wrapped sum read before the write, Z from the result, pc + 1, no exception. -/
def Obligations.AddWrapsAndSetsZero : Prop :=
  (∀ rd rn rm : Reg,
    assembleProgram ("add ".toList ++ regToken rd ++ [' '] ++ regToken rn ++ [' '] ++ regToken rm) =
      .ok [0b00#2 ++ rd.code ++ rn.code ++ rm.code]) ∧
  (∀ b : Byte, b &&& 0xC0#8 = 0x00#8 →
    decodeByte b =
      .add (Reg.ofCode (b.extractLsb' 4 2)) (Reg.ofCode (b.extractLsb' 2 2)) (Reg.ofCode (b.extractLsb' 0 2))) ∧
  ∀ (rd rn rm : Reg) (s : State), ∃ t : State,
    exec (.add rd rn rm) s = .next t ∧
    (t.readReg rd).toNat = ((s.readReg rn).toNat + (s.readReg rm).toNat) % 256 ∧
    t.z = decide (((s.readReg rn).toNat + (s.readReg rm).toNat) % 256 = 0) ∧
    t.pc = s.pc + 1

/-- 41_alu.md R124, whole: syntax, encoding (match 0x40, mask 0xC0), the bitwise and read before the write, Z from the result, pc + 1, no exception. -/
def Obligations.AndIsBitwiseAndSetsZero : Prop :=
  (∀ rd rn rm : Reg,
    assembleProgram ("and ".toList ++ regToken rd ++ [' '] ++ regToken rn ++ [' '] ++ regToken rm) =
      .ok [0b01#2 ++ rd.code ++ rn.code ++ rm.code]) ∧
  (∀ b : Byte, b &&& 0xC0#8 = 0x40#8 →
    decodeByte b =
      .and (Reg.ofCode (b.extractLsb' 4 2)) (Reg.ofCode (b.extractLsb' 2 2)) (Reg.ofCode (b.extractLsb' 0 2))) ∧
  ∀ (rd rn rm : Reg) (s : State), ∃ t : State,
    exec (.and rd rn rm) s = .next t ∧
    (∀ k < 8, (t.readReg rd).getLsbD k = ((s.readReg rn).getLsbD k && (s.readReg rm).getLsbD k)) ∧
    t.z = decide ((s.readReg rn).toNat &&& (s.readReg rm).toNat = 0) ∧
    t.pc = s.pc + 1

/-- 41_alu.md R125, whole: syntax, encoding (match 0x80, mask 0xC0, assembled with bits 1-0 zero, which the decoder ignores: the spec's decision D15), the complement 255 - x[rn] read before the write, Z from the result, pc + 1, no exception. -/
def Obligations.NotComplementsAndSetsZero : Prop :=
  (∀ rd rn : Reg,
    assembleProgram ("not ".toList ++ regToken rd ++ [' '] ++ regToken rn) =
      .ok [0b10#2 ++ rd.code ++ rn.code ++ 0b00#2]) ∧
  (∀ b : Byte, b &&& 0xC0#8 = 0x80#8 →
    decodeByte b = .not (Reg.ofCode (b.extractLsb' 4 2)) (Reg.ofCode (b.extractLsb' 2 2))) ∧
  ∀ (rd rn : Reg) (s : State), ∃ t : State,
    exec (.not rd rn) s = .next t ∧
    (t.readReg rd).toNat = 255 - (s.readReg rn).toNat ∧
    t.z = decide (255 - (s.readReg rn).toNat = 0) ∧
    t.pc = s.pc + 1

/-- 42_branch.md R140: syntax with the label's address as the target, encoding (match 0xC0, mask 0xC0), taken exactly when Z is false with pc at the target itself (R141: no further advance), else pc + 1; nothing but pc is written, no target faults, and a BNZ that leaves pc at or beyond N, taken or not, halts at the next fetch. -/
def Obligations.BnzBranchesWhenZeroFlagClear : Prop :=
  (∀ (labels : LabelTable) (n : Nat) (label : Option Text) (name : Text) (a : Nat),
    isLabelName name = true → labels.lookup name = some a → a < 64 → a < n →
      assembleLine labels n { label := label, mnemonic := "bnz".toList, operands := [name] } = .ok (.bnz a)) ∧
  (∀ b : Byte, b &&& 0xC0#8 = 0xC0#8 → decodeByte b = .bnz (b.toNat % 64)) ∧
  (∀ (target : Nat) (s : State), s.z = false → exec (.bnz target) s = .next { s with pc := target }) ∧
  (∀ (target : Nat) (s : State), s.z = true → exec (.bnz target) s = .next { s with pc := s.pc + 1 }) ∧
  ∀ (target : Nat) (s t : State),
    s.status = .running → exec (.bnz target) s = .next t → s.imemLen ≤ t.pc →
      step t = .next { t with status := .haltedNormal }

/-- The frame of all four instructions: every one completes, and changes no register but its destination, Z only when it has a destination, and none of the counter, the status, the store, N and B. Every fetch reads as before. -/
def Obligations.InstructionsChangeOnlyTheirTargets : Prop :=
  ∀ (i : Instr) (s : State), ∃ t : State,
    exec i s = .next t ∧
    (∀ r : Reg, i.destination ≠ some r → t.readReg r = s.readReg r) ∧
    (i.destination = none → t.z = s.z) ∧
    t.cycles = s.cycles ∧ t.status = s.status ∧
    t.imem = s.imem ∧ t.imemLen = s.imemLen ∧ t.budget = s.budget ∧
    ∀ a : Nat, t.ifetch a = s.ifetch a

/-- 10_state.md R24 and 41_alu.md R122: an instruction with a destination sets Z to whether the destination now holds zero and does not read Z; BNZ reads Z and leaves it unchanged; a step that changes Z executed an instruction with a destination. -/
def Obligations.OnlyAluInstructionsWriteZero : Prop :=
  (∀ (i : Instr) (rd : Reg) (s t : State),
    i.destination = some rd → exec i s = .next t → t.z = decide (t.readReg rd = 0x00#8)) ∧
  (∀ (i : Instr) (rd : Reg) (s : State) (b : Bool), i.destination = some rd → exec i { s with z := b } = exec i s) ∧
  (∀ (target : Nat) (s : State), exec (.bnz target) s = .next { s with pc := if s.z then s.pc + 1 else target }) ∧
  ∀ s t : State, step s = .next t → t.z ≠ s.z →
    s.pc < s.imemLen ∧ ∃ rd : Reg, (decodeByte (s.imem.read s.pc)).destination = some rd

/-- 20_memory.md R51: no instruction reads or writes memory. What an instruction does is the same whatever the store, N, the budget, the counter and the status are, and it leaves each of them as it was. -/
def Obligations.InstructionsIgnoreMemoryAndCounters : Prop :=
  ∀ (i : Instr) (s : State) (m : Memory) (n b c : Nat) (st : RunStatus), ∃ t : State,
    exec i s = .next t ∧
    exec i { s with imem := m, imemLen := n, budget := b, cycles := c, status := st } =
      .next { t with imem := m, imemLen := n, budget := b, cycles := c, status := st }

/-- 60_exceptions.md R150: no instruction faults. Every byte decodes, every instruction completes in every state, every step of a running machine completes, and of a running machine below N the fetch has a byte. -/
def Obligations.NoInstructionFaults : Prop :=
  (∀ byte : Byte, ∃ i : Instr, decode [byte] = .ok (i, [])) ∧
  (∀ (i : Instr) (s : State), ∃ t : State, exec i s = .next t) ∧
  (∀ s : State, s.status = .running → ∃ t : State, step s = .next t) ∧
  ∀ s : State, s.pc < s.imemLen → s.ifetch s.pc = some (s.imem.read s.pc)

/-! ### The step -/

/-- 40_execution_cycle.md R101: a fetch at or beyond N halts normally and changes nothing else; otherwise the byte at pc is fetched, and the step is that byte's instruction, retired. -/
def Obligations.FetchPastProgramHaltsNormally : Prop :=
  (∀ s : State, s.status = .running → s.imemLen ≤ s.pc → step s = .next { s with status := .haltedNormal }) ∧
  ∀ s : State, s.status = .running → s.pc < s.imemLen →
    s.ifetch s.pc = some (s.imem.read s.pc) ∧ step s = retireOutcome (exec (decodeByte (s.imem.read s.pc)) s)

/-- 40_execution_cycle.md R102 to R106: when the byte at pc decodes to i, the step is exec of i, then one more on the cycle counter, then the strict budget check on the new count. -/
def Obligations.StepRunsDecodedInstruction : Prop :=
  ∀ (s : State) (byte : Byte) (i : Instr),
    s.status = .running → s.ifetch s.pc = some byte → decode [byte] = .ok (i, []) →
      ∃ t : State, exec i s = .next t ∧
        step s = .next
          { t with
            cycles := s.cycles + 1
            status := if s.cycles + 1 > s.budget then .haltedCycleLimit else .running }

/-- 40_execution_cycle.md R104 and 10_state.md R25: after a step that executed an instruction, pc is the target of a taken BNZ, and one more than before in every other case. -/
def Obligations.PcAdvancesOrBranches : Prop :=
  ∀ s t : State, s.pc < s.imemLen → step s = .next t →
    (∀ target : Nat, decodeByte (s.imem.read s.pc) = .bnz target → s.z = false → t.pc = target) ∧
    ((∀ target : Nat, decodeByte (s.imem.read s.pc) ≠ .bnz target) ∨ s.z = true → t.pc = s.pc + 1)

/-- 40_execution_cycle.md R107, an inference the spec marks as its own: the instruction that exceeds the budget halts the run as cycle-limited, wherever it leaves pc. -/
def Obligations.CycleLimitWinsOverProgramEnd : Prop :=
  ∀ s : State, s.status = .running → s.pc < s.imemLen → s.budget ≤ s.cycles →
    ∃ t : State, step s = .next t ∧ t.status = .haltedCycleLimit ∧ t.cycles = s.cycles + 1

/-- 40_execution_cycle.md R100 and R108, with the model's choice of log 3 for "no step": a step answers a next state exactly while the machine runs, a halted machine answers the fault `halted`, and running it on changes nothing. -/
def Obligations.MachineStepsExactlyWhileRunning : Prop :=
  ∀ s : State,
    ((∃ t : State, step s = .next t) ↔ s.status = .running) ∧
    (s.status ≠ .running → step s = .fault .halted ∧ ∀ k : Nat, State.runToHalt k s = s)

/-- 40_execution_cycle.md R109: the step is the spec's pseudocode, written over natural numbers, and changes neither IMEM, N nor B. -/
def Obligations.StepIsThePseudocode : Prop :=
  ∀ s : State, s.status = .running → ∃ t : State,
    step s = .next t ∧
    t.toPseudo = pseudoStep (fun a => (s.imem.read a).toNat) s.imemLen s.budget s.toPseudo ∧
    t.imem = s.imem ∧ t.imemLen = s.imemLen ∧ t.budget = s.budget

/-! ### Encoding -/

/-- Words written out from the spec's encodings (95_test_vectors.md part 2), one or more of every family. -/
def Obligations.WrittenOutWordsDecode : Prop :=
  decodeByte 0b00011011#8 = .add .r1 .r2 .r3 ∧
  decodeByte 0b01101100#8 = .and .r2 .r3 .r0 ∧
  decodeByte 0b10010100#8 = .not .r1 .r1 ∧
  decodeByte 0b10000011#8 = .not .r0 .r0 ∧
  decodeByte 0b11100101#8 = .bnz 37

/-- 30_encoding.md R74: the opcode alone selects the instruction, in the byte ranges of the table, and every byte is an instruction that has an encoding. -/
def Obligations.OpcodeAloneSelectsInstruction : Prop :=
  ∀ b : Byte,
    (decodeByte b).wellFormed = true ∧
    (b.toNat ≤ 0x3F ↔ ∃ rd rn rm : Reg, decodeByte b = .add rd rn rm) ∧
    (0x40 ≤ b.toNat ∧ b.toNat ≤ 0x7F ↔ ∃ rd rn rm : Reg, decodeByte b = .and rd rn rm) ∧
    (0x80 ≤ b.toNat ∧ b.toNat ≤ 0xBF ↔ ∃ rd rn : Reg, decodeByte b = .not rd rn) ∧
    (0xC0 ≤ b.toNat ↔ ∃ target : Nat, decodeByte b = .bnz target)

/-- Decode and encode agree on every well-formed instruction, whatever follows it; its encoding is one byte. -/
def Obligations.DecodeOfEncodeIsInstruction : Prop :=
  ∀ (i : Instr) (rest : List Byte), i.wellFormed = true →
    (encode i).length = 1 ∧ decode (encode i ++ rest) = .ok (i, rest)

/-- The other direction: encoding what a byte decodes to gives the byte back, but for the two bits NOT ignores (30_encoding.md R72; the spec's decision D15). -/
def Obligations.EncodeOfDecodeIsByte : Prop :=
  ∀ b : Byte, encodeByte (decodeByte b) = if b &&& 0xC0#8 = 0x80#8 then b &&& 0xFC#8 else b

/-! ### Runs -/

/-- 70_reset_and_hazards.md R171 to R174, the spec's own decisions D3 to D6: what reset leaves, from any state, and what State.reset holds; a BNZ first after reset is taken. IMEM, N and B are not touched. -/
def Obligations.ResetLeavesSpecValues : Prop :=
  (∀ (s : State) (r : Reg), s.start.readReg r = 0x00#8) ∧
  (∀ s : State, s.start.z = false ∧ s.start.pc = 0 ∧ s.start.cycles = 0) ∧
  (∀ (s : State) (target : Nat), exec (.bnz target) s.start = .next { s.start with pc := target }) ∧
  (∀ s : State, s.start.imem = s.imem ∧ s.start.imemLen = s.imemLen ∧ s.start.budget = s.budget) ∧
  State.reset.start = State.reset

/-- 70_reset_and_hazards.md R175, the spec's own decision D7 and inference: the status after a reset of any state is RUNNING, with any program, and with no program (N = 0) the first step halts normally with no instruction counted. -/
def Obligations.EmptyProgramHaltsAtFirstStep : Prop :=
  (∀ s : State, s.start.status = .running) ∧
  (∀ (program : List Byte) (budget : Nat), (State.boot program budget).status = .running) ∧
  ∀ s : State, s.imemLen = 0 →
    s.start.cycles = 0 ∧ step s.start = .next { s.start with status := .haltedNormal }

/-- No state carries over from an earlier run: what a load, a budget and a reset leave does not depend on the state before (70_reset_and_hazards.md section 1, 60_exceptions.md section 6). -/
def Obligations.NewRunForgetsEarlierRun : Prop :=
  ∀ (s s' : State) (program : List Byte) (budget : Nat),
    ((s.load program).configure budget).start = ((s'.load program).configure budget).start

/-- 20_memory.md R53 and R62: at every step of a run, every fetch reads the byte the host loaded at that address, and no address beyond the program has one. -/
def Obligations.FetchesReadTheLoadedProgram : Prop :=
  ∀ (program : List Byte) (budget k : Nat) (t : State), StepsTo (State.boot program budget) k t →
    ∀ a : Nat, t.ifetch a = program[a]?

/-- The invariant of a run: every step keeps it. -/
def Obligations.EveryStepKeepsInvariant : Prop :=
  ∀ s t : State, Inv s → step s = .next t → Inv t

/-- The invariant holds at State.reset and after every load, budget and reset. -/
def Obligations.InvariantHoldsAtStart : Prop :=
  Inv State.reset ∧ ∀ (program : List Byte) (budget : Nat), Inv (State.boot program budget)

/-- 40_execution_cycle.md R105 and R106: the cycle counter counts the executed instructions, one a step, the halting fetch not counted; a step that executed an instruction halts the run as cycle-limited exactly when the new count exceeds B; and so a run executes at most B + 1 instructions. -/
def Obligations.CycleCounterCountsInstructions : Prop :=
  (∀ (program : List Byte) (budget k : Nat) (t : State), StepsTo (State.boot program budget) k t →
    (t.status = .haltedNormal → t.cycles + 1 = k) ∧ (t.status ≠ .haltedNormal → t.cycles = k) ∧ t.cycles ≤ budget + 1) ∧
  ∀ s t : State, s.pc < s.imemLen → step s = .next t →
    t.cycles = s.cycles + 1 ∧ (t.status = .haltedCycleLimit ↔ t.cycles > s.budget)

/-- 40_execution_cycle.md R111, an inference the spec marks as its own: every run ends, after at most B + 1 executed instructions and one final fetch. -/
def Obligations.EveryRunEnds : Prop :=
  (∀ s : State, s.status = .running → s.cycles ≤ s.budget →
    (State.runToHalt (s.budget + 2 - s.cycles) s).status ≠ .running) ∧
  ∀ (program : List Byte) (budget : Nat),
    (State.runProgram program budget).status ≠ .running ∧ (State.runProgram program budget).cycles ≤ budget + 1

/-- 40_execution_cycle.md R110, an inference the spec marks as its own: a program that ends after K <= B instructions halts normally in the state those K instructions leave; one that has not ended after B instructions is cycle-limited in the state B + 1 instructions leave. -/
def Obligations.RunOutcomeByInstructionCount : Prop :=
  ∀ (program : List Byte) (budget : Nat),
    (∀ k ≤ budget, (State.boot program budget).EndsAfter k →
      State.runProgram program budget =
        { (State.boot program budget).freeRun k with cycles := k, status := .haltedNormal }) ∧
    ((∀ j ≤ budget, ((State.boot program budget).freeRun j).pc < program.length) →
      State.runProgram program budget =
        { (State.boot program budget).freeRun (budget + 1) with cycles := budget + 1, status := .haltedCycleLimit })

/-! ### The clocked block -/

/-- The decoder's output equations (30_encoding.md section 3, whole; the spec's decision D13): the fields are the byte's bits, each select is high exactly for its instruction with that instruction's operands on rd, rn, rm or target, exactly one select is high, and the write enables are high for ADD, AND and NOT alone. -/
def Obligations.DecoderSignalsAgreeWithDecoding : Prop :=
  ∀ b : Byte,
    ((decoder b).op = b.extractLsb' 6 2 ∧ (decoder b).rd = b.extractLsb' 4 2 ∧ (decoder b).rn = b.extractLsb' 2 2 ∧
      (decoder b).rm = b.extractLsb' 0 2 ∧ (decoder b).target = b.extractLsb' 0 6) ∧
    (decoder b).op = (decodeByte b).opcode ∧
    ((decoder b).isAdd = decide ((decoder b).op = 0b00#2) ∧ (decoder b).isAnd = decide ((decoder b).op = 0b01#2) ∧
      (decoder b).isNot = decide ((decoder b).op = 0b10#2) ∧ (decoder b).isBnz = decide ((decoder b).op = 0b11#2)) ∧
    ((decoder b).isAdd = true ↔ ∃ rd rn rm : Reg, decodeByte b = .add rd rn rm) ∧
    ((decoder b).isAnd = true ↔ ∃ rd rn rm : Reg, decodeByte b = .and rd rn rm) ∧
    ((decoder b).isNot = true ↔ ∃ rd rn : Reg, decodeByte b = .not rd rn) ∧
    ((decoder b).isBnz = true ↔ ∃ target : Nat, decodeByte b = .bnz target) ∧
    (∀ rd rn rm : Reg, decodeByte b = .add rd rn rm ∨ decodeByte b = .and rd rn rm →
      (decoder b).rd = rd.code ∧ (decoder b).rn = rn.code ∧ (decoder b).rm = rm.code) ∧
    (∀ rd rn : Reg, decodeByte b = .not rd rn → (decoder b).rd = rd.code ∧ (decoder b).rn = rn.code) ∧
    (∀ target : Nat, decodeByte b = .bnz target → (decoder b).target.toNat = target) ∧
    [(decoder b).isAdd, (decoder b).isAnd, (decoder b).isNot, (decoder b).isBnz].count true = 1 ∧
    (decoder b).regWe = ((decoder b).isAdd || (decoder b).isAnd || (decoder b).isNot) ∧
    (decoder b).zWe = ((decoder b).isAdd || (decoder b).isAnd || (decoder b).isNot)

/-- The ALU's function table in exact arithmetic (41_alu.md section 1; the spec's decision D14). The output under opcode 11 is free. -/
def Obligations.AluFunctionTable : Prop :=
  ∀ a b : Byte,
    (alu 0b00#2 a b).y.toNat = (a.toNat + b.toNat) % 256 ∧
    (alu 0b01#2 a b).y.toNat = a.toNat &&& b.toNat ∧
    (alu 0b10#2 a b).y.toNat = 255 - a.toNat ∧
    ∀ op : BitVec 2, (alu op a b).zero = decide ((alu op a b).y.toNat = 0)

/-- The clocked block realises the step: with widths that suffice and the ports driven by the run's parameters, an edge without reset commits exactly one step while running and nothing when halted (40_execution_cycle.md section 3; the spec's decisions D2, D10, D11, D12), and an edge with reset starts the run over. That an edge with rst high resets in every status, the pending step being lost, is the model's inference of log 12, DEDUCED from 00_scope.md R12 (synchronous reset) and 70_reset_and_hazards.md R170. -/
def Obligations.ClockedBlockRealisesStep : Prop :=
  ∀ (pcW cntW : Nat) (s : State) (b : Block pcW cntW) (inp : BlockIn pcW cntW),
    Inv s → WidthsSuffice pcW cntW s → b.Holds s → inp.DrivenBy s →
      (inp.rst = false → ∀ t : State, step s = .next t → (b.edge inp).Holds t) ∧
      (inp.rst = false → s.status ≠ .running → b.edge inp = b) ∧
      (inp.rst = true → (b.edge inp).Holds s.start)

/-- The output ports show the Machine State: the fetch address and dbg_pc are pc, the status port has the code of the status and never 11, and the rest is read off as it is (00_scope.md section 5, 10_state.md section 4; the spec's decisions D1, D20). -/
def Obligations.PortsShowMachineState : Prop :=
  ∀ (pcW cntW : Nat) (s : State) (b : Block pcW cntW), b.Holds s →
    b.outputs.imemAddr.toNat = s.pc ∧ b.outputs.dbgPc.toNat = s.pc ∧ b.outputs.dbgCycles.toNat = s.cycles ∧
    b.outputs.dbgRegs = s.x ∧ b.outputs.dbgZ = s.z ∧
    (b.outputs.status = 0b00#2 ↔ s.status = .running) ∧
    (b.outputs.status = 0b01#2 ↔ s.status = .haltedNormal) ∧
    (b.outputs.status = 0b10#2 ↔ s.status = .haltedCycleLimit) ∧
    b.outputs.status ≠ 0b11#2

/-! ### The host's boundary -/

/-- An object file gives back the program it was written from (30_encoding.md section 6; the spec's decision D18; two digits a line and a line feed are the model's choices, log 14). -/
def Obligations.ObjectFileRoundTrip : Prop :=
  ∀ program : List Byte, parseObject (renderObject program) = .ok program

/-- A later line of an object file that is no byte gives no program and no run, and the exit code is nonzero (60_exceptions.md section 1; the spec's decision D18; the line feed as the line terminator is the model's choice, log 14). -/
def Obligations.MalformedObjectLineGivesNoRun : Prop :=
  ∀ (marker bad : Text) (before after : List Text) (debug : Bool) (budget : Nat),
    (∀ line ∈ marker :: before ++ bad :: after, '\n' ∉ line) →
    (∀ v : Byte, parseByteLine bad ≠ .ok v) →
      State.hostRun debug ((marker :: before ++ bad :: after).flatMap (fun line => line ++ ['\n'])) budget =
        .error .malformedObjectByte ∧
      exitCode (State.hostRun debug ((marker :: before ++ bad :: after).flatMap (fun line => line ++ ['\n'])) budget) =
        .nonzero

/-- A trace never changes a run's result (60_exceptions.md R163), and it ends in the final state (40_execution_cycle.md section 3; the spec's decision D19). -/
def Obligations.TraceOnlyObserves : Prop :=
  (∀ (file : Text) (budget : Nat),
    (State.hostRun true file budget).map HostResult.final = (State.hostRun false file budget).map HostResult.final) ∧
  ∀ (program : List Byte) (budget : Nat),
    (State.traceRun (budget + 2) (State.boot program budget)).getLast? = (State.runProgram program budget).readout

/-- A comma is rejected, with the rule's own example (30_encoding.md section 5, R83). That the comma is reported also where a mnemonic or a register of the same text is wrong is the model's choice of log 15, DESIGN CHOICE. -/
def Obligations.CommaIsRejected : Prop :=
  (∀ (label : Option Text) (t : Text), ',' ∈ t → readInstruction label t = .error .malformedOperandSeparator) ∧
  assembleProgram "add r0, r1, r2".toList = .error .malformedOperandSeparator

/-- The labels of 30_encoding.md section 5 (R84): a name is found at an address only if the line there has that label, and a label written on one line alone is found at that line's address, wherever it is; a label bound twice, one bound nowhere, and an address of 64 or more or at or beyond N are errors. That a label bound twice is reported before an instruction's own error is the model's choice of log 15, DESIGN CHOICE. -/
def Obligations.LabelsNameTheirInstructions : Prop :=
  (∀ (lines : List SourceLine) (name : Text) (a : Nat), (labelTable 0 lines).lookup name = some a →
    ∃ line : SourceLine, lines[a]? = some line ∧ line.label = some name) ∧
  (∀ (lines : List SourceLine) (name : Text) (a : Nat) (line : SourceLine),
    lines[a]? = some line → line.label = some name →
    (∀ (k : Nat) (other : SourceLine), lines[k]? = some other → other.label = some name → k = a) →
      (labelTable 0 lines).lookup name = some a) ∧
  (∀ (lines : List SourceLine) (name : Text) (j k : Nat) (first second : SourceLine),
    j < k → lines[j]? = some first → lines[k]? = some second → first.label = some name → second.label = some name →
      assembleLines lines = .error .duplicateLabel) ∧
  (∀ (labels : LabelTable) (n : Nat) (name : Text), labels.lookup name = none → branchTo labels n name = .error .undefinedLabel) ∧
  ∀ (labels : LabelTable) (n : Nat) (name : Text) (a : Nat), labels.lookup name = some a →
    branchTo labels n name = if a < 64 ∧ a < n then .ok (.bnz a) else .error .branchTargetOutOfRange

/-- 42_branch.md R143: a label address of 64 or more, or at or beyond the program's length, is rejected, and in an assembled program every BNZ names an instruction of the program, below 64. -/
def Obligations.AssembledBranchesStayInProgram : Prop :=
  (∀ (labels : LabelTable) (n : Nat) (name : Text) (a : Nat),
    labels.lookup name = some a → 64 ≤ a ∨ n ≤ a → branchTo labels n name = .error .branchTargetOutOfRange) ∧
  ∀ (source : Text) (program : List Byte), assembleProgram source = .ok program →
    ∀ byte ∈ program, ∀ target : Nat, decodeByte byte = .bnz target → target < program.length ∧ target < 64

/-- The program's length is the number of source lines that are neither blank nor only a comment (30_encoding.md section 5). What ends a line (the line feed alone, log 14) and what is blank (space, tab, carriage return, log 15) are the model's choices, DESIGN CHOICE. -/
def Obligations.AssembledLengthCountsLines : Prop :=
  ∀ (source : Text) (program : List Byte), assembleProgram source = .ok program →
    program.length =
      ((textLines source).filter (fun line => decide (trimText (line.takeWhile (· ≠ ';')) ≠ []))).length

/-- A source file is UTF-8 text (30_encoding.md section 5, R80): every text is read back from its bytes and assembles from them as it does itself, and bytes that are not UTF-8 give no program. The form of UTF-8 is presumed from the standard, log 21. -/
def Obligations.SourceFileIsUtf8Text : Prop :=
  (∀ source : Text, utf8Decode (utf8Encode source) = some source ∧ assembleFile (utf8Encode source) = assembleProgram source) ∧
  ∀ file : List Byte, utf8Decode file = none → assembleFile file = .error .notUtf8

/-- Bytes that decode are exactly a text's encoding: no longer form of a character, no surrogate and no stray byte is accepted. The form of UTF-8 is presumed from the standard, log 21. -/
def Obligations.OnlyEncodingsDecodeAsUtf8 : Prop :=
  ∀ (file : List Byte) (source : Text), utf8Decode file = some source → utf8Encode source = file

/-- An unknown mnemonic is an error that names the valid set, add, and, not, bnz (30_encoding.md section 5, R86). An upper-case form of one of them is refused instead, the model's choice of log 15, DESIGN CHOICE. -/
def Obligations.UnknownMnemonicNamesValidSet : Prop :=
  ∀ (labels : LabelTable) (n : Nat) (line : SourceLine),
    line.mnemonic.map Char.toLower ∉ ["add".toList, "and".toList, "not".toList, "bnz".toList] →
      assembleLine labels n line =
        .error (.unknownMnemonic ["add".toList, "and".toList, "not".toList, "bnz".toList])
end

