-- ==== Sys2Proof/Laws/Decode.lean ====
section
/-! SUPPORT. The register codes and the fields of a byte. -/

namespace Sys2Proof

@[simp] theorem Reg.ofCode_code (r : Reg) : Reg.ofCode r.code = r := by
  cases r <;> rfl

@[simp] theorem Reg.code_ofCode : ∀ c : BitVec 2, (Reg.ofCode c).code = c := by
  decide

/-- The four fields of a byte put together from four fields (30_encoding.md R70). -/
theorem fields_packFields : ∀ a b c d : BitVec 2,
    opcodeField (packFields a b c d) = a ∧ rdField (packFields a b c d) = b ∧
    rnField (packFields a b c d) = c ∧ rmField (packFields a b c d) = d := by
  intro a b c d
  simp only [opcodeField, rdField, rnField, rmField, packFields]
  refine ⟨?_, ?_, ?_, ?_⟩ <;> ext i hi <;> simp only [BitVec.getElem_extractLsb', BitVec.getLsbD_append] <;>
    (have : i = 0 ∨ i = 1 := by omega) <;> rcases this with rfl | rfl <;> simp [BitVec.getLsbD_eq_getElem]

/-- The opcode and the target of a branch's byte (30_encoding.md R73). -/
theorem fields_branchByte (t : BitVec 6) :
    opcodeField (0b11#2 ++ t) = 0b11#2 ∧ targetField (0b11#2 ++ t) = t := by
  revert t
  decide

end Sys2Proof
end

