-- ==== Sys2Proof/Laws/Host.lean ====
section
/-! SUPPORT. What the functions on texts at the host's boundary do. -/

namespace Sys2Proof.Machine

/-- A collection that succeeds has one result an element, each the function's result of an element. -/
theorem collect_ok {α β ε : Type} (f : α → Except ε β) : ∀ (l : List α) (r : List β), collect f l = .ok r →
    r.length = l.length ∧ ∀ b ∈ r, ∃ a ∈ l, f a = .ok b := by
  intro l
  induction l with
  | nil => intro r h; cases h; simp
  | cons a l ih =>
    intro r h
    rw [collect] at h
    cases hf : f a with
    | error e => rw [hf] at h; cases h
    | ok b =>
      rw [hf] at h
      cases hc : collect f l with
      | error e => rw [hc] at h; cases h
      | ok bs =>
        rw [hc] at h
        cases h
        obtain ⟨hlen, hmem⟩ := ih bs hc
        refine ⟨by simp [hlen], fun b' hb' => ?_⟩
        rcases List.mem_cons.mp hb' with rfl | hb'
        · exact ⟨a, List.mem_cons_self, hf⟩
        · obtain ⟨a', ha', h'⟩ := hmem b' hb'
          exact ⟨a', List.mem_cons_of_mem _ ha', h'⟩

/-- A piece without the separator stands before the pieces of what follows it. -/
theorem splitAtChar_piece {sep : Char} {piece : Text} (h : sep ∉ piece) (rest : Text) :
    splitAtChar sep (piece ++ sep :: rest) = piece :: splitAtChar sep rest := by
  induction piece with
  | nil => simp [splitAtChar]
  | cons c piece ih =>
    rw [List.mem_cons, not_or] at h
    rw [List.cons_append, splitAtChar, if_neg (fun hc => h.1 hc.symm), ih h.2]

theorem dropLastEmpty_snoc (pieces : List Text) : dropLastEmpty (pieces ++ [[]]) = pieces := by
  induction pieces with
  | nil => rfl
  | cons p ps ih =>
    cases ps with
    | nil => rfl
    | cons q qs => rw [List.cons_append, List.cons_append, dropLastEmpty, ← List.cons_append, ih]

/-- Lines that are each ended by a line feed are read back. -/
theorem textLines_lines {lines : List Text} (h : ∀ line ∈ lines, '\n' ∉ line) :
    textLines (lines.flatMap (fun line => line ++ ['\n'])) = lines := by
  have hsplit : splitAtChar '\n' (lines.flatMap (fun line => line ++ ['\n'])) = lines ++ [[]] := by
    induction lines with
    | nil => rfl
    | cons l ls ih =>
      rw [List.flatMap_cons, List.append_assoc, List.singleton_append, splitAtChar_piece (h l List.mem_cons_self),
        ih fun m hm => h m (List.mem_cons_of_mem _ hm), List.cons_append]
  rw [textLines, hsplit, dropLastEmpty_snoc]

/-- A label's address lies at or beyond the first line's, and the line there has the label. -/
theorem labelTable_lookup : ∀ (lines : List SourceLine) (base : Nat) (name : Text) (a : Nat),
    (labelTable base lines).lookup name = some a →
      base ≤ a ∧ ∃ line, lines[a - base]? = some line ∧ line.label = some name := by
  intro lines
  induction lines with
  | nil => intro base name a h; cases h
  | cons l ls ih =>
    intro base name a h
    have tail : (labelTable (base + 1) ls).lookup name = some a →
        base ≤ a ∧ ∃ line, (l :: ls)[a - base]? = some line ∧ line.label = some name := by
      intro h
      obtain ⟨hle, line, hline, hlabel⟩ := ih _ _ _ h
      refine ⟨by omega, line, ?_, hlabel⟩
      rw [show a - base = (a - (base + 1)) + 1 by omega]
      exact hline
    unfold labelTable at h
    cases hl : l.label with
    | none => rw [hl] at h; exact tail h
    | some m =>
      rw [hl] at h
      simp only [List.lookup_cons] at h
      split at h
      · next he =>
        cases h
        rw [beq_iff_eq] at he
        subst he
        exact ⟨le_rfl, l, by simp, hl⟩
      · exact tail h

/-- A character that needs the bytes it has is the character of its own code point. -/
theorem utf8Char_toNat {least : Nat} {c : Char} (h : least ≤ c.toNat) : utf8Char least c.toNat = some c := by
  have hv : c.toNat.isValidChar := c.valid
  rw [utf8Char, if_pos ⟨h, hv⟩, Char.ofNat_toNat]

/-- What utf8Char can answer: the character of the code point, which needs the bytes it has. -/
theorem utf8Char_eq_some {least value : Nat} {c : Char} (h : utf8Char least value = some c) :
    c.toNat = value ∧ least ≤ value ∧ value.isValidChar := by
  unfold utf8Char at h
  split at h
  · next hv =>
    cases h
    refine ⟨?_, hv⟩
    rw [show Char.ofNat value = Char.ofNatAux value hv.2 by rw [Char.ofNat, dif_pos hv.2]]
    show (BitVec.ofNatLT value _).toNat = value
    simp
  · cases h

/-- consChar answers a text exactly when both parts are there. -/
theorem consChar_eq_some {c : Option Char} {t : Option Text} {u : Text} (h : consChar c t = some u) :
    ∃ d v, c = some d ∧ t = some v ∧ u = d :: v := by
  cases c with
  | none => cases h
  | some d =>
    cases t with
    | none => cases h
    | some v => cases h; exact ⟨d, v, rfl, rfl, rfl⟩

end Sys2Proof.Machine
end

