-- ==== Sys2Proof/Laws/State.lean ====
section
/-! SUPPORT. One lemma per field per update of State, true by rfl. -/

namespace Sys2Proof.Machine

@[simp] theorem State.writeReg_x (s : State) (r : Reg) (v : Byte) : (s.writeReg r v).x = s.x.set r v := rfl
@[simp] theorem State.writeReg_z (s : State) (r : Reg) (v : Byte) : (s.writeReg r v).z = s.z := rfl
@[simp] theorem State.writeReg_pc (s : State) (r : Reg) (v : Byte) : (s.writeReg r v).pc = s.pc := rfl
@[simp] theorem State.writeReg_cycles (s : State) (r : Reg) (v : Byte) : (s.writeReg r v).cycles = s.cycles := rfl
@[simp] theorem State.writeReg_status (s : State) (r : Reg) (v : Byte) : (s.writeReg r v).status = s.status := rfl
@[simp] theorem State.writeReg_imem (s : State) (r : Reg) (v : Byte) : (s.writeReg r v).imem = s.imem := rfl
@[simp] theorem State.writeReg_imemLen (s : State) (r : Reg) (v : Byte) : (s.writeReg r v).imemLen = s.imemLen := rfl
@[simp] theorem State.writeReg_budget (s : State) (r : Reg) (v : Byte) : (s.writeReg r v).budget = s.budget := rfl

@[simp] theorem State.writeZ_x (s : State) (b : Bool) : (s.writeZ b).x = s.x := rfl
@[simp] theorem State.writeZ_z (s : State) (b : Bool) : (s.writeZ b).z = b := rfl
@[simp] theorem State.writeZ_pc (s : State) (b : Bool) : (s.writeZ b).pc = s.pc := rfl
@[simp] theorem State.writeZ_cycles (s : State) (b : Bool) : (s.writeZ b).cycles = s.cycles := rfl
@[simp] theorem State.writeZ_status (s : State) (b : Bool) : (s.writeZ b).status = s.status := rfl
@[simp] theorem State.writeZ_imem (s : State) (b : Bool) : (s.writeZ b).imem = s.imem := rfl
@[simp] theorem State.writeZ_imemLen (s : State) (b : Bool) : (s.writeZ b).imemLen = s.imemLen := rfl
@[simp] theorem State.writeZ_budget (s : State) (b : Bool) : (s.writeZ b).budget = s.budget := rfl

@[simp] theorem State.advance_x (s : State) : s.advance.x = s.x := rfl
@[simp] theorem State.advance_z (s : State) : s.advance.z = s.z := rfl
@[simp] theorem State.advance_pc (s : State) : s.advance.pc = s.pc + 1 := rfl
@[simp] theorem State.advance_cycles (s : State) : s.advance.cycles = s.cycles := rfl
@[simp] theorem State.advance_status (s : State) : s.advance.status = s.status := rfl
@[simp] theorem State.advance_imem (s : State) : s.advance.imem = s.imem := rfl
@[simp] theorem State.advance_imemLen (s : State) : s.advance.imemLen = s.imemLen := rfl
@[simp] theorem State.advance_budget (s : State) : s.advance.budget = s.budget := rfl

@[simp] theorem State.jump_x (s : State) (target : Nat) : (s.jump target).x = s.x := rfl
@[simp] theorem State.jump_z (s : State) (target : Nat) : (s.jump target).z = s.z := rfl
@[simp] theorem State.jump_pc (s : State) (target : Nat) : (s.jump target).pc = target := rfl
@[simp] theorem State.jump_cycles (s : State) (target : Nat) : (s.jump target).cycles = s.cycles := rfl
@[simp] theorem State.jump_status (s : State) (target : Nat) : (s.jump target).status = s.status := rfl
@[simp] theorem State.jump_imem (s : State) (target : Nat) : (s.jump target).imem = s.imem := rfl
@[simp] theorem State.jump_imemLen (s : State) (target : Nat) : (s.jump target).imemLen = s.imemLen := rfl
@[simp] theorem State.jump_budget (s : State) (target : Nat) : (s.jump target).budget = s.budget := rfl

@[simp] theorem State.halt_x (s : State) (reason : RunStatus) : (s.halt reason).x = s.x := rfl
@[simp] theorem State.halt_z (s : State) (reason : RunStatus) : (s.halt reason).z = s.z := rfl
@[simp] theorem State.halt_pc (s : State) (reason : RunStatus) : (s.halt reason).pc = s.pc := rfl
@[simp] theorem State.halt_cycles (s : State) (reason : RunStatus) : (s.halt reason).cycles = s.cycles := rfl
@[simp] theorem State.halt_status (s : State) (reason : RunStatus) : (s.halt reason).status = reason := rfl
@[simp] theorem State.halt_imem (s : State) (reason : RunStatus) : (s.halt reason).imem = s.imem := rfl
@[simp] theorem State.halt_imemLen (s : State) (reason : RunStatus) : (s.halt reason).imemLen = s.imemLen := rfl
@[simp] theorem State.halt_budget (s : State) (reason : RunStatus) : (s.halt reason).budget = s.budget := rfl

@[simp] theorem State.countCycle_x (s : State) : s.countCycle.x = s.x := rfl
@[simp] theorem State.countCycle_z (s : State) : s.countCycle.z = s.z := rfl
@[simp] theorem State.countCycle_pc (s : State) : s.countCycle.pc = s.pc := rfl
@[simp] theorem State.countCycle_cycles (s : State) : s.countCycle.cycles = s.cycles + 1 := rfl
@[simp] theorem State.countCycle_status (s : State) : s.countCycle.status = s.status := rfl
@[simp] theorem State.countCycle_imem (s : State) : s.countCycle.imem = s.imem := rfl
@[simp] theorem State.countCycle_imemLen (s : State) : s.countCycle.imemLen = s.imemLen := rfl
@[simp] theorem State.countCycle_budget (s : State) : s.countCycle.budget = s.budget := rfl

@[simp] theorem State.placeNextByte_x (s : State) (v : Byte) : (s.placeNextByte v).x = s.x := rfl
@[simp] theorem State.placeNextByte_z (s : State) (v : Byte) : (s.placeNextByte v).z = s.z := rfl
@[simp] theorem State.placeNextByte_pc (s : State) (v : Byte) : (s.placeNextByte v).pc = s.pc := rfl
@[simp] theorem State.placeNextByte_cycles (s : State) (v : Byte) : (s.placeNextByte v).cycles = s.cycles := rfl
@[simp] theorem State.placeNextByte_status (s : State) (v : Byte) : (s.placeNextByte v).status = .running := rfl
@[simp] theorem State.placeNextByte_imem (s : State) (v : Byte) : (s.placeNextByte v).imem = s.imem.write s.pc v := rfl
@[simp] theorem State.placeNextByte_imemLen (s : State) (v : Byte) : (s.placeNextByte v).imemLen = max s.imemLen (s.pc + 1) := rfl
@[simp] theorem State.placeNextByte_budget (s : State) (v : Byte) : (s.placeNextByte v).budget = s.budget := rfl

@[simp] theorem State.load_x (s : State) (program : List Byte) : (s.load program).x = s.x := rfl
@[simp] theorem State.load_z (s : State) (program : List Byte) : (s.load program).z = s.z := rfl
@[simp] theorem State.load_pc (s : State) (program : List Byte) : (s.load program).pc = s.pc := rfl
@[simp] theorem State.load_cycles (s : State) (program : List Byte) : (s.load program).cycles = s.cycles := rfl
@[simp] theorem State.load_status (s : State) (program : List Byte) : (s.load program).status = s.status := rfl
@[simp] theorem State.load_imem (s : State) (program : List Byte) : (s.load program).imem = Memory.ofBytes 0 program := rfl
@[simp] theorem State.load_imemLen (s : State) (program : List Byte) : (s.load program).imemLen = program.length := rfl
@[simp] theorem State.load_budget (s : State) (program : List Byte) : (s.load program).budget = s.budget := rfl

@[simp] theorem State.configure_x (s : State) (budget : Nat) : (s.configure budget).x = s.x := rfl
@[simp] theorem State.configure_z (s : State) (budget : Nat) : (s.configure budget).z = s.z := rfl
@[simp] theorem State.configure_pc (s : State) (budget : Nat) : (s.configure budget).pc = s.pc := rfl
@[simp] theorem State.configure_cycles (s : State) (budget : Nat) : (s.configure budget).cycles = s.cycles := rfl
@[simp] theorem State.configure_status (s : State) (budget : Nat) : (s.configure budget).status = s.status := rfl
@[simp] theorem State.configure_imem (s : State) (budget : Nat) : (s.configure budget).imem = s.imem := rfl
@[simp] theorem State.configure_imemLen (s : State) (budget : Nat) : (s.configure budget).imemLen = s.imemLen := rfl
@[simp] theorem State.configure_budget (s : State) (budget : Nat) : (s.configure budget).budget = budget := rfl

@[simp] theorem State.startWith_x (s : State) (x : RegFile) (z : Bool) : (s.startWith x z).x = x := rfl
@[simp] theorem State.startWith_z (s : State) (x : RegFile) (z : Bool) : (s.startWith x z).z = z := rfl
@[simp] theorem State.startWith_pc (s : State) (x : RegFile) (z : Bool) : (s.startWith x z).pc = Config.resetPc := rfl
@[simp] theorem State.startWith_cycles (s : State) (x : RegFile) (z : Bool) : (s.startWith x z).cycles = Config.resetCycles := rfl
@[simp] theorem State.startWith_status (s : State) (x : RegFile) (z : Bool) : (s.startWith x z).status = .running := rfl
@[simp] theorem State.startWith_imem (s : State) (x : RegFile) (z : Bool) : (s.startWith x z).imem = s.imem := rfl
@[simp] theorem State.startWith_imemLen (s : State) (x : RegFile) (z : Bool) : (s.startWith x z).imemLen = s.imemLen := rfl
@[simp] theorem State.startWith_budget (s : State) (x : RegFile) (z : Bool) : (s.startWith x z).budget = s.budget := rfl

@[simp] theorem State.start_eq_startWith (s : State) :
    s.start = s.startWith (RegFile.all Config.resetRegister) Config.resetZ := rfl

@[simp] theorem State.readReg_eq_get (s : State) (r : Reg) : s.readReg r = s.x.get r := rfl

end Sys2Proof.Machine
end

