-- ==== Sys2Proof/Laws/Ops.lean ====
section
/-! SUPPORT. What the shared operations do: registers, flag, store, counter and budget check. -/

namespace Sys2Proof.Machine

/-! ### The register file -/

@[simp] theorem RegFile.get_set_same (x : RegFile) (r : Reg) (v : Byte) : (x.set r v).get r = v := by
  cases r <;> rfl

theorem RegFile.get_set_other (x : RegFile) {r q : Reg} (v : Byte) (h : q ≠ r) : (x.set r v).get q = x.get q := by
  cases r <;> cases q <;> first | rfl | exact absurd rfl h

@[simp] theorem RegFile.get_all (v : Byte) (r : Reg) : (RegFile.all v).get r = v := by
  cases r <;> rfl

/-! ### The write-back of a result -/

/-- Z follows the value written (41_alu.md R122). -/
theorem State.writeResult_eq (s : State) (rd : Reg) (v : Byte) :
    s.writeResult rd v = { s with x := s.x.set rd v, z := zeroFlag v } := by
  simp [State.writeResult, State.writeReg, State.writeZ]

theorem zeroFlag_eq_decide (v : Byte) : zeroFlag v = decide (v = 0#8) := rfl

theorem zeroFlag_eq_toNat (v : Byte) : zeroFlag v = decide (v.toNat = 0) := by
  rw [zeroFlag_eq_decide, decide_eq_decide]
  exact ⟨fun h => by rw [h]; rfl, fun h => BitVec.eq_of_toNat_eq h⟩

/-! ### The ALU's results in exact arithmetic -/

theorem aluAdd_toNat (a b : Byte) : (aluAdd a b).toNat = (a.toNat + b.toNat) % 256 := BitVec.toNat_add a b

theorem aluAnd_toNat (a b : Byte) : (aluAnd a b).toNat = a.toNat &&& b.toNat := BitVec.toNat_and a b

theorem aluNot_toNat (a : Byte) : (aluNot a).toNat = 255 - a.toNat := BitVec.toNat_not

/-! ### The store -/

theorem Memory.wf_nil : Memory.wf [] := by decide

theorem Memory.entry_mem {a : Nat} {v : Byte} {rest : Memory} {c : Host.Cell}
    (h : c ∈ Memory.entry a v rest) : c.1 = a ∨ c ∈ rest := by
  unfold Memory.entry at h
  split at h
  · exact .inr h
  · rcases List.mem_cons.mp h with rfl | h
    · exact .inl rfl
    · exact .inr h

/-- A byte put before addresses that are all higher keeps the canonical form. -/
theorem Memory.entry_wf {a : Nat} {v : Byte} {rest : Memory} (hw : Memory.wf rest)
    (ha : ∀ c ∈ rest, a < c.1) : Memory.wf (Memory.entry a v rest) := by
  unfold Memory.entry
  split
  · exact hw
  · exact ⟨List.pairwise_cons.mpr ⟨ha, hw.1⟩, List.forall_mem_cons.mpr ⟨‹_›, hw.2⟩⟩

/-- An address below every listed one is unlisted. -/
theorem Memory.read_of_lt {m : Memory} {a : Nat} (h : ∀ c ∈ m, a < c.1) : m.read a = Memory.unlisted := by
  induction m with
  | nil => rfl
  | cons c rest ih =>
    obtain ⟨b, w⟩ := c
    have hb : a < b := h (b, w) List.mem_cons_self
    rw [Memory.read, if_neg (by omega), ih fun c hc => h c (List.mem_cons_of_mem _ hc)]

theorem Memory.read_entry {a b : Nat} {v : Byte} {rest : Memory} (h : ∀ c ∈ rest, a < c.1) :
    (Memory.entry a v rest).read b = if b = a then v else rest.read b := by
  unfold Memory.entry
  split
  · next hv =>
    split
    · next hb => rw [hb, hv, Memory.read_of_lt h]
    · rfl
  · rfl

theorem Memory.wf_tail {c : Host.Cell} {rest : Memory} (h : Memory.wf (c :: rest)) : Memory.wf rest :=
  ⟨(List.pairwise_cons.mp h.1).2, fun d hd => h.2 d (List.mem_cons_of_mem _ hd)⟩

theorem Memory.head_lt {c : Host.Cell} {rest : Memory} (h : Memory.wf (c :: rest)) : ∀ d ∈ rest, c.1 < d.1 :=
  (List.pairwise_cons.mp h.1).1

/-- A write lists no address but its own and those listed before. -/
theorem Memory.write_mem {m : Memory} {a : Nat} {v : Byte} {c : Host.Cell}
    (h : c ∈ m.write a v) : c.1 = a ∨ c ∈ m := by
  induction m with
  | nil => exact Memory.entry_mem h
  | cons d rest ih =>
    obtain ⟨b, w⟩ := d
    rw [Memory.write] at h
    split at h
    · exact Memory.entry_mem h
    · split at h
      · exact (Memory.entry_mem h).imp_right (List.mem_cons_of_mem _)
      · rcases List.mem_cons.mp h with rfl | h
        · exact .inr List.mem_cons_self
        · exact (ih h).imp_right (List.mem_cons_of_mem _)

/-- A write keeps the canonical form. -/
theorem Memory.write_wf {m : Memory} (hw : Memory.wf m) (a : Nat) (v : Byte) : Memory.wf (m.write a v) := by
  induction m with
  | nil => exact Memory.entry_wf hw (by simp)
  | cons d rest ih =>
    obtain ⟨b, w⟩ := d
    have hlt := Memory.head_lt hw
    rw [Memory.write]
    split
    · next hab =>
      refine Memory.entry_wf hw fun c hc => ?_
      rcases List.mem_cons.mp hc with rfl | hc
      · exact hab
      · exact Nat.lt_trans hab (hlt c hc)
    · split
      · next heq => subst heq; exact Memory.entry_wf (Memory.wf_tail hw) hlt
      · next hge hne =>
        refine ⟨List.pairwise_cons.mpr ⟨fun c hc => ?_, (ih (Memory.wf_tail hw)).1⟩,
          List.forall_mem_cons.mpr ⟨hw.2 _ List.mem_cons_self, (ih (Memory.wf_tail hw)).2⟩⟩
        rcases Memory.write_mem hc with h | hc
        · show b < c.1; omega
        · exact hlt c hc

/-- A read after a write gives the byte written at its address, and every other address reads as before. -/
theorem Memory.read_write {m : Memory} (hw : Memory.wf m) (a b : Nat) (v : Byte) :
    (m.write a v).read b = if b = a then v else m.read b := by
  induction m with
  | nil => rw [Memory.write, Memory.read_entry (by simp)]
  | cons d rest ih =>
    obtain ⟨e, w⟩ := d
    have hlt := Memory.head_lt hw
    rw [Memory.write]
    split
    · next hae =>
      refine Memory.read_entry fun c hc => ?_
      rcases List.mem_cons.mp hc with rfl | hc
      · exact hae
      · exact Nat.lt_trans hae (hlt c hc)
    · split
      · next heq =>
        subst heq
        rw [Memory.read_entry hlt]
        split
        · rfl
        · next hb => rw [Memory.read, if_neg hb]
      · next hne =>
        rw [Memory.read, Memory.read, ih (Memory.wf_tail hw)]
        split <;> split <;> first | rfl | omega

/-- The loaded bytes lie in the addresses from the base on. -/
theorem Memory.ofBytes_mem {program : List Byte} : ∀ {base : Nat} {c : Host.Cell},
    c ∈ Memory.ofBytes base program → base ≤ c.1 ∧ c.1 < base + program.length := by
  induction program with
  | nil => intro base c h; exact absurd h (List.not_mem_nil)
  | cons v rest ih =>
    intro base c h
    rw [List.length_cons]
    rcases Memory.entry_mem h with h | h
    · omega
    · have := ih h; omega

theorem Memory.ofBytes_wf (program : List Byte) : ∀ base : Nat, Memory.wf (Memory.ofBytes base program) := by
  induction program with
  | nil => intro _; exact Memory.wf_nil
  | cons v rest ih =>
    intro base
    exact Memory.entry_wf (ih _) fun c hc => (Memory.ofBytes_mem hc).1

/-- The store reads the k-th loaded byte k addresses above the base (30_encoding.md R88). -/
theorem Memory.read_ofBytes (program : List Byte) : ∀ (base k : Nat),
    (Memory.ofBytes base program).read (base + k) = program.getD k Memory.unlisted := by
  induction program with
  | nil => intro base k; rfl
  | cons v rest ih =>
    intro base k
    rw [Memory.ofBytes, Memory.read_entry fun c hc => (Memory.ofBytes_mem hc).1]
    cases k with
    | zero => simp
    | succ k => rw [if_neg (by omega), show base + (k + 1) = base + 1 + k by omega, ih, List.getD_cons_succ]

/-- Placing a byte for the next fetch keeps the canonical form. -/
theorem State.placeNextByte_wf {s : State} (hw : s.imem.wf) (v : Byte) : (s.placeNextByte v).imem.wf :=
  Memory.write_wf hw _ _

/-- The next fetch reads the byte placed for it. -/
theorem State.ifetch_placeNextByte {s : State} (hw : s.imem.wf) (v : Byte) :
    (s.placeNextByte v).ifetch (s.placeNextByte v).pc = some v := by
  simp [State.ifetch, Memory.read_write hw]

/-! ### Retirement -/

/-- What follows an executed instruction: one more on the counter, and the strict budget check (40_execution_cycle.md R105, R106). -/
theorem State.retire_eq (s : State) :
    s.retire =
      { s with
        cycles := s.cycles + 1
        status := if s.budget < s.cycles + 1 then .haltedCycleLimit else s.status } := by
  unfold State.retire State.checkBudget
  split <;> simp_all [State.halt, State.countCycle]

end Sys2Proof.Machine
end

