-- ==== Sys2Proof/Laws/PerInstr.lean ====
section
/-! SUPPORT. Statements made of every instruction as it is written, one lemma a constructor. -/

namespace Sys2Proof.Laws.EncodedOpcode

/-- The opcode field of an instruction's byte is its opcode (30_encoding.md R74). -/
def Statement (i : Instr) : Prop := opcodeField (encodeByte i) = i.opcode

end Sys2Proof.Laws.EncodedOpcode

theorem Sys2Proof.Laws.EncodedOpcode.add (rd rn rm : Sys2Proof.Reg) :
    Sys2Proof.Laws.EncodedOpcode.Statement (.add rd rn rm) :=
  (Sys2Proof.fields_packFields _ _ _ _).1

theorem Sys2Proof.Laws.EncodedOpcode.and (rd rn rm : Sys2Proof.Reg) :
    Sys2Proof.Laws.EncodedOpcode.Statement (.and rd rn rm) :=
  (Sys2Proof.fields_packFields _ _ _ _).1

theorem Sys2Proof.Laws.EncodedOpcode.not (rd rn : Sys2Proof.Reg) :
    Sys2Proof.Laws.EncodedOpcode.Statement (.not rd rn) :=
  (Sys2Proof.fields_packFields _ _ _ _).1

theorem Sys2Proof.Laws.EncodedOpcode.bnz (target : Nat) :
    Sys2Proof.Laws.EncodedOpcode.Statement (.bnz target) :=
  (Sys2Proof.fields_branchByte _).1
end

