-- ==== Sys2Proof/Laws/Step.lean ====
section
/-! SUPPORT. What each meaning answers, and the cases of a step. -/

namespace Sys2Proof.Machine

/-- An ALU instruction's next state. -/
theorem finishAlu_eq (rd : Reg) (v : Byte) (s : State) :
    finishAlu rd v s = .next { s with x := s.x.set rd v, z := zeroFlag v, pc := s.pc + 1 } := by
  rw [finishAlu, State.writeResult_eq]
  rfl

theorem exec_add (rd rn rm : Reg) (s : State) :
    exec (.add rd rn rm) s = finishAlu rd (aluAdd (s.readReg rn) (s.readReg rm)) s := rfl

theorem exec_and (rd rn rm : Reg) (s : State) :
    exec (.and rd rn rm) s = finishAlu rd (aluAnd (s.readReg rn) (s.readReg rm)) s := rfl

theorem exec_not (rd rn : Reg) (s : State) : exec (.not rd rn) s = finishAlu rd (aluNot (s.readReg rn)) s := rfl

theorem exec_bnz (target : Nat) (s : State) :
    exec (.bnz target) s = .next { s with pc := if s.z then s.pc + 1 else target } := by
  cases h : s.z <;> simp [exec, execBnz, State.branchTaken, h, State.jump, State.advance]

/-- An instruction answers a next state that differs from s in x, z and pc alone: with a destination, the destination is written, Z follows it and pc advances; without one, only pc changes. -/
theorem exec_shape (i : Instr) (s : State) :
    (∃ rd v, i.destination = some rd ∧
      exec i s = .next { s with x := s.x.set rd v, z := zeroFlag v, pc := s.pc + 1 }) ∨
    (∃ target, i = .bnz target ∧ exec i s = .next { s with pc := if s.z then s.pc + 1 else target }) := by
  cases i with
  | add rd rn rm => exact .inl ⟨rd, _, rfl, by rw [exec_add, finishAlu_eq]⟩
  | and rd rn rm => exact .inl ⟨rd, _, rfl, by rw [exec_and, finishAlu_eq]⟩
  | not rd rn => exact .inl ⟨rd, _, rfl, by rw [exec_not, finishAlu_eq]⟩
  | bnz target => exact .inr ⟨target, rfl, exec_bnz target s⟩

/-- A fetch below N has the store's byte. -/
theorem State.ifetch_of_lt {s : State} {a : Nat} (h : a < s.imemLen) : s.ifetch a = some (s.imem.read a) :=
  if_pos h

/-- A fetch at or beyond N has none. -/
theorem State.ifetch_of_ge {s : State} {a : Nat} (h : s.imemLen ≤ a) : s.ifetch a = none :=
  if_neg (Nat.not_lt.mpr h)

/-- A running machine below N runs the byte at pc. -/
theorem step_of_lt {s : State} (hr : s.status = .running) (h : s.pc < s.imemLen) :
    step s = retireOutcome (exec (decodeByte (s.imem.read s.pc)) s) := by
  rw [step, hr, State.ifetch_of_lt h]

/-- A running machine at or beyond N halts. -/
theorem step_of_ge {s : State} (hr : s.status = .running) (h : s.imemLen ≤ s.pc) :
    step s = .next (s.halt .haltedNormal) := by
  rw [step, hr, State.ifetch_of_ge h]
  rfl

/-- A halted machine takes no step. -/
theorem step_of_halted {s : State} (hr : s.status ≠ .running) : step s = .fault .halted := by
  cases h : s.status with
  | running => exact absurd h hr
  | haltedNormal => rw [step, h]; rfl
  | haltedCycleLimit => rw [step, h]; rfl

/-- The cases of a step that answers a next state. -/
theorem step_cases {s t : State} (h : step s = .next t) :
    s.status = .running ∧
    ((s.imemLen ≤ s.pc ∧ t = s.halt .haltedNormal) ∨
     (s.pc < s.imemLen ∧ ∃ u, exec (decodeByte (s.imem.read s.pc)) s = .next u ∧ t = u.retire)) := by
  by_cases hr : s.status = .running
  · refine ⟨hr, ?_⟩
    by_cases hp : s.pc < s.imemLen
    · rw [step_of_lt hr hp] at h
      refine .inr ⟨hp, ?_⟩
      cases he : exec (decodeByte (s.imem.read s.pc)) s with
      | next u => rw [he] at h; cases h; exact ⟨u, rfl, rfl⟩
      | fault r => rw [he] at h; cases h
      | refused r => rw [he] at h; cases h
    · have hp : s.imemLen ≤ s.pc := by omega
      rw [step_of_ge hr hp] at h
      cases h
      exact .inl ⟨hp, rfl⟩
  · rw [step_of_halted hr] at h
    cases h

/-- The step of a state with a placed byte is that byte's instruction, retired. -/
theorem step_placeNextByte {s : State} (hw : s.imem.wf) (v : Byte) :
    step (s.placeNextByte v) = retireOutcome (exec (decodeByte v) (s.placeNextByte v)) := by
  rw [step, State.placeNextByte_status, State.ifetch_placeNextByte hw]

/-- Packages an induction over steps: what every step keeps holds after any number of them. -/
theorem StepsTo.keeps {P : State → Prop} (hstep : ∀ s t, P s → step s = .next t → P t)
    {s t : State} {k : Nat} (h : StepsTo s k t) (hs : P s) : P t := by
  induction h with
  | refl => exact hs
  | tail _ hstepTo ih => exact hstep _ _ ih hstepTo

end Sys2Proof.Machine
end

