-- ==== Sys2Proof/Tests/Slice0.lean ====
section
/-! SUPPORT. The model's own tests: expected values from 95_test_vectors.md and from hand calculation by the rules, and a witness for the hypotheses of every statement that has some. -/

namespace Sys2Proof.Tests

open Sys2Proof Sys2Proof.Machine

/-- The next state of an outcome. -/
def nextOf : Host.Outcome State Fault Refusal → Option State
  | .next t => some t
  | .fault _ => none
  | .refused _ => none

/-- A running machine with a program and a budget of 20, at a pc, with registers and Z. -/
def stateWith (program : List Byte) (x : RegFile) (z : Bool) (pc : Nat) : State :=
  { State.boot program 20 with x := x, z := z, pc := pc }

/-- Registers r0..r3. -/
def regs (a b c d : Byte) : RegFile := { r0 := a, r1 := b, r2 := c, r3 := d }

/-! ### WellFormed: an ill-formed term for each check, refused (30_encoding.md R73, R84) -/

theorem test_target_64_is_ill_formed : (Instr.bnz 64).wellFormed = false := by decide
theorem test_target_63_is_well_formed : (Instr.bnz 63).wellFormed = true := by decide
theorem test_target_at_program_length_is_ill_formed : (Instr.bnz 4).wellFormedIn 4 = false := by decide
theorem test_target_64_is_ill_formed_in_long_program : (Instr.bnz 64).wellFormedIn 100 = false := by decide
theorem test_target_inside_program_is_well_formed : (Instr.bnz 3).wellFormedIn 4 = true := by decide

/-! ### Decoding: words written out bit by bit (30_encoding.md R71 to R73; 95_test_vectors.md part 2) -/

theorem test_decode_add : decodeByte 0b00011011#8 = .add .r1 .r2 .r3 ∧ decodeByte 0b00111111#8 = .add .r3 .r3 .r3 := by decide
theorem test_decode_and : decodeByte 0b01101100#8 = .and .r2 .r3 .r0 ∧ decodeByte 0b01000000#8 = .and .r0 .r0 .r0 := by decide
theorem test_decode_not : decodeByte 0b10111100#8 = .not .r3 .r3 ∧ decodeByte 0b10010100#8 = .not .r1 .r1 := by decide
theorem test_decode_not_ignores_low_bits : decodeByte 0b10000011#8 = .not .r0 .r0 ∧ decodeByte 0b10111111#8 = .not .r3 .r3 := by decide
theorem test_decode_bnz : decodeByte 0b11100101#8 = .bnz 37 ∧ decodeByte 0b11111111#8 = .bnz 63 := by decide
theorem test_decode_no_byte : decode [] = .error .noByte := by rfl
theorem test_encode_not_third_field_zero : encode (.not .r1 .r0) = [0x90#8] := by decide
theorem test_decode_table_word : decodeTableWord 8 0xC5 = some (.bnz 5) := by decide

/-! ### ALU instructions (95_test_vectors.md part 2) -/

theorem test_add_wraps_to_zero :
    (nextOf (exec (.add .r0 .r1 .r2) (stateWith [] (regs 0x55 0xFF 0x01 0) false 3))).map (fun t => (t.x, t.z, t.pc)) =
      some (regs 0x00 0xFF 0x01 0, true, 4) := by decide
theorem test_add_destination_is_both_sources :
    (nextOf (exec (.add .r1 .r1 .r1) (stateWith [] (regs 0 0xFF 0 0) true 0))).map (fun t => (t.x, t.z)) =
      some (regs 0 0xFE 0 0, false) := by decide
theorem test_and_disjoint_is_zero :
    (nextOf (exec (.and .r3 .r0 .r1) (stateWith [] (regs 0xF0 0x0F 0 0x77) false 0))).map (fun t => (t.x, t.z)) =
      some (regs 0xF0 0x0F 0 0x00, true) := by decide
theorem test_and_keeps_common_bits :
    (nextOf (exec (.and .r2 .r0 .r1) (stateWith [] (regs 0xAA 0x0F 0 0) true 0))).map (fun t => (t.x, t.z)) =
      some (regs 0xAA 0x0F 0x0A 0, false) := by decide
theorem test_not_in_place :
    (nextOf (exec (.not .r2 .r2) (stateWith [] (regs 0 0 0x3C 0) true 0))).map (fun t => (t.x, t.z)) =
      some (regs 0 0 0xC3 0, false) := by decide
theorem test_not_of_ff_is_zero :
    (nextOf (exec (.not .r0 .r1) (stateWith [] (regs 7 0xFF 0 0) false 0))).map (fun t => (t.x, t.z)) =
      some (regs 0 0xFF 0 0, true) := by decide

/-! ### BNZ (95_test_vectors.md B1, B2) -/

theorem test_bnz_taken :
    (nextOf (exec (.bnz 5) (stateWith [] (regs 1 2 3 4) false 7))).map (fun t => (t.pc, t.z, t.x)) =
      some (5, false, regs 1 2 3 4) := by decide
theorem test_bnz_falls_through :
    (nextOf (exec (.bnz 5) (stateWith [] (regs 1 2 3 4) true 7))).map (fun t => (t.pc, t.z)) = some (8, true) := by decide

/-! ### The step and the two halts (95_test_vectors.md T1 to T3, B3) -/

theorem test_empty_program_halts_normally :
    (nextOf (step (State.boot [] 20))).map State.observe =
      some { x := regs 0 0 0 0, z := false, pc := 0, cycles := 0, status := .haltedNormal } := by decide
theorem test_cycle_limit_wins_at_program_end :
    (nextOf (step (State.boot [0x80] 0))).map State.observe =
      some { x := regs 0xFF 0 0 0, z := false, pc := 1, cycles := 1, status := .haltedCycleLimit } := by decide
theorem test_within_budget_runs_on :
    (nextOf (step (State.boot [0x80] 1))).map State.observe =
      some { x := regs 0xFF 0 0 0, z := false, pc := 1, cycles := 1, status := .running } := by decide
theorem test_bnz_beyond_program_is_taken :
    (nextOf (step (stateWith [0, 0, 0, 0xFF] (regs 0 0 0 0) false 3))).map (fun t => (t.pc, t.status)) =
      some (63, .running) := by decide
theorem test_halted_machine_takes_no_step : nextOf (step ((State.boot [0x80] 20).halt .haltedNormal)) = none := by decide
theorem test_fetch_word_runs_after_reset :
    (nextOf (step (State.reset.withFetchWord 8 0x90))).map (fun t => (t.x, t.pc, t.cycles)) = some (regs 0 0xFF 0 0, 1, 1) := by
  decide

/-! ### The host's boundary (95_test_vectors.md S1, S3, S4, S5, P4) -/

theorem test_object_file_p4 : parseObject "v2.0 raw\nc2\n94\n81\nff\n".toList = .ok [0xC2, 0x94, 0x81, 0xFF] := by rfl
theorem test_object_value_above_255 : parseObject "v2.0 raw\n100\n".toList = .error .malformedObjectByte := by rfl
theorem test_object_empty_line : parseObject "v2.0 raw\n\n80\n".toList = .error .malformedObjectByte := by rfl
theorem test_assemble_s1_first_half :
    assembleProgram "start:  not r0 r1\n        and r0 r0 r1\n        not r1 r0\n        add r1 r1 r1 ; double\n        not r1 r1\n".toList =
      .ok [0x84, 0x41, 0x90, 0x15, 0x94] := by rfl
theorem test_assemble_backward_branch :
    assembleProgram "; loop\n\nloop: and r3 r0 r0\nadd r0 r0 r1\nbnz loop\n".toList = .ok [0x70, 0x01, 0xC0] := by rfl
theorem test_assemble_default_register : assembleProgram "not r0\nnot r2\nadd r1\nand r3 r1\nand".toList = .ok [0x80, 0xA0, 0x10, 0x74, 0x40] := by rfl
theorem test_assemble_duplicate_label : assembleProgram "start: add r0 r0 r0\nstart: bnz start".toList = .error .duplicateLabel := by rfl
theorem test_assemble_undefined_label : assembleProgram "bnz unknown".toList = .error .undefinedLabel := by rfl
theorem test_assemble_comma : assembleProgram "add r0, r1, r2".toList = .error .malformedOperandSeparator := by rfl
theorem test_assemble_unsettled_space : assembleProgram "add r1  r2".toList = .error .unsettledForm := by rfl
theorem test_assemble_bad_names :
    assembleProgram "sub r0 r1 r2".toList = .error (.unknownMnemonic ["add".toList, "and".toList, "not".toList, "bnz".toList]) ∧ assembleProgram "add r0 r4 r2".toList = .error .invalidRegister := ⟨rfl, rfl⟩

/-! ### UTF-8: the standard's own forms of é (U+00E9), € (U+20AC) and U+1F600 -/

theorem test_utf8_forms :
    utf8Decode [0x61, 0xC3, 0xA9, 0xE2, 0x82, 0xAC, 0xF0, 0x9F, 0x98, 0x80] =
      some [Char.ofNat 0x61, Char.ofNat 0xE9, Char.ofNat 0x20AC, Char.ofNat 0x1F600] := by decide
theorem test_utf8_refuses_overlong_surrogate_and_cut :
    utf8Decode [0xC1, 0x81] = none ∧ utf8Decode [0xED, 0xA0, 0x80] = none ∧ utf8Decode [0xE2, 0x82] = none ∧
    utf8Decode [0xF4, 0x90, 0x80, 0x80] = none := by decide
theorem test_assemble_file_with_comment :
    assembleFile (utf8Encode "not r1 r0 ; ".toList ++ [0xC3, 0xA9]) = .ok [0x90] := by rfl

/-! ### Witnesses: inputs that meet the hypotheses of the statements, at the edges of their ranges -/

/-- Add, And, Not, BnzBranchesWhenZeroFlagClear: the first and the last byte of every opcode. -/
theorem witness_opcode_bytes :
    0x00#8 &&& 0xC0#8 = 0x00#8 ∧ 0x3F#8 &&& 0xC0#8 = 0x00#8 ∧ 0x40#8 &&& 0xC0#8 = 0x40#8 ∧ 0x7F#8 &&& 0xC0#8 = 0x40#8 ∧
    0x80#8 &&& 0xC0#8 = 0x80#8 ∧ 0xBF#8 &&& 0xC0#8 = 0x80#8 ∧ 0xC0#8 &&& 0xC0#8 = 0xC0#8 ∧ 0xFF#8 &&& 0xC0#8 = 0xC0#8 := by decide
/-- BnzBranchesWhenZeroFlagClear: a label at the last address it may have. -/
theorem witness_label_in_range : isLabelName "end".toList = true ∧ List.lookup "end".toList [("end".toList, 63)] = some 63 ∧ (63 : Nat) < 64 ∧ (63 : Nat) < 64 := by decide
/-- BnzBranchesWhenZeroFlagClear: a taken branch to N itself, and one not taken at N - 1. -/
theorem witness_branch_to_program_end :
    let s := stateWith [0xC1] (regs 0 0 0 0) false 0
    let u := stateWith [0xC0] (regs 0 0 0 0) true 0
    s.status = .running ∧ s.z = false ∧ exec (.bnz 1) s = .next { s with pc := 1 } ∧ s.imemLen ≤ 1 ∧
    u.status = .running ∧ exec (.bnz 0) u = .next { u with pc := 1 } ∧ u.imemLen ≤ 1 :=
  ⟨rfl, rfl, rfl, by decide, rfl, rfl, by decide⟩
/-- BnzBranchesWhenZeroFlagClear: Z true. -/
theorem witness_zero_set : (stateWith [] (regs 0 0 0 0) true 0).z = true := by decide
/-- InstructionsChangeOnlyTheirTargets, OnlyAluInstructionsWriteZero, DecoderSignalsAgreeWithDecoding: instructions with and without a destination. -/
theorem witness_destinations :
    (Instr.not .r3 .r0).destination = some .r3 ∧ (Instr.not .r3 .r0).destination ≠ some .r0 ∧ (Instr.bnz 0).destination = none ∧
    (decodeByte 0xBF).destination = some .r3 ∧ decodeByte 0xC0 = .bnz 0 := by decide
/-- OnlyAluInstructionsWriteZero: a step that changes Z. -/
theorem witness_step_changes_zero :
    ∃ t, step (State.boot [0x00] 20) = .next t ∧ t.z ≠ (State.boot [0x00] 20).z := ⟨_, rfl, by decide⟩
/-- FetchPastProgramHaltsNormally, PcAdvancesOrBranches, NoInstructionFaults: pc at N, and pc at N - 1. -/
theorem witness_fetch_at_edges :
    (stateWith [0x80, 0x80] (regs 0 0 0 0) false 2).imemLen ≤ (stateWith [0x80, 0x80] (regs 0 0 0 0) false 2).pc ∧
    (stateWith [0x80, 0x80] (regs 0 0 0 0) false 1).pc < (stateWith [0x80, 0x80] (regs 0 0 0 0) false 1).imemLen ∧
    (stateWith [0x80, 0x80] (regs 0 0 0 0) false 1).status = .running := by decide
/-- StepRunsDecodedInstruction: a byte at pc that decodes. -/
theorem witness_step_runs_instruction :
    (State.boot [0xBF] 0).status = .running ∧ (State.boot [0xBF] 0).ifetch (State.boot [0xBF] 0).pc = some 0xBF ∧
    decode [0xBF] = .ok (.not .r3 .r3, []) := ⟨rfl, rfl, rfl⟩
/-- PcAdvancesOrBranches: a taken branch, one not taken, and an instruction that is no branch. -/
theorem witness_pc_cases :
    (∃ t, step (stateWith [0xFF] (regs 0 0 0 0) false 0) = .next t ∧ decodeByte ((stateWith [0xFF] (regs 0 0 0 0) false 0).imem.read 0) = .bnz 63) ∧
    (∃ t, step (stateWith [0xFF] (regs 0 0 0 0) true 0) = .next t ∧ (stateWith [0xFF] (regs 0 0 0 0) true 0).z = true) ∧
    (∃ t, step (stateWith [0xBF] (regs 0 0 0 0) false 0) = .next t ∧ decodeByte ((stateWith [0xBF] (regs 0 0 0 0) false 0).imem.read 0) = .not .r3 .r3) :=
  ⟨⟨_, rfl, by decide⟩, ⟨_, rfl, rfl⟩, ⟨_, rfl, by decide⟩⟩
/-- CycleLimitWinsOverProgramEnd: the counter at the budget, pc at the last instruction. -/
theorem witness_budget_used_up :
    let s := State.boot [0x80] 0
    s.status = .running ∧ s.pc < s.imemLen ∧ s.budget ≤ s.cycles ∧ s.pc + 1 = s.imemLen := by decide
/-- MachineStepsExactlyWhileRunning, ClockedBlockRealisesStep: both ways of being halted. -/
theorem witness_halted :
    (State.reset.halt .haltedNormal).status ≠ .running ∧ (State.reset.halt .haltedCycleLimit).status ≠ .running := by decide
/-- DecoderSignalsAgreeWithDecoding: the last byte of every opcode. -/
theorem witness_decoded_bytes :
    decodeByte 0x3F = .add .r3 .r3 .r3 ∧ decodeByte 0x7F = .and .r3 .r3 .r3 ∧ decodeByte 0xBF = .not .r3 .r3 ∧ decodeByte 0xFF = .bnz 63 := by
  decide
/-- SourceFileIsUtf8Text, OnlyEncodingsDecodeAsUtf8: bytes that are no text, and bytes that are one. -/
theorem witness_utf8 : utf8Decode [0xFF] = none ∧ utf8Decode [0x7F] = some [Char.ofNat 0x7F] := by decide
/-- UnknownMnemonicNamesValidSet: a mnemonic that is none of the four in any case. -/
theorem witness_unknown_mnemonic : "Sub".toList.map Char.toLower ∉ ["add".toList, "and".toList, "not".toList, "bnz".toList] := by decide
/-- DecodeOfEncodeIsInstruction: the largest target. -/
theorem witness_well_formed : (Instr.bnz 63).wellFormed = true := by decide
/-- EncodeOfDecodeIsByte, both arms. -/
theorem witness_encode_arms : 0xBF#8 &&& 0xC0#8 = 0x80#8 ∧ ¬ 0xC0#8 &&& 0xC0#8 = 0x80#8 := by decide
/-- FetchesReadTheLoadedProgram, CycleCounterCountsInstructions: two steps, the second the halting fetch. -/
theorem witness_two_steps :
    ∃ t u, StepsTo (State.boot [0x80] 5) 1 t ∧ t.status ≠ .haltedNormal ∧
      StepsTo (State.boot [0x80] 5) 2 u ∧ u.status = .haltedNormal :=
  ⟨_, _, .tail (.refl _) rfl, by decide, .tail (.tail (.refl _) rfl) rfl, rfl⟩
/-- EmptyProgramHaltsAtFirstStep: a used machine with N = 0. -/
theorem witness_no_program : ({ State.boot [] 3 with x := regs 1 2 3 4, z := true, pc := 9, cycles := 4 } : State).imemLen = 0 := rfl
/-- EveryStepKeepsInvariant: a state of a run that takes a step. -/
theorem witness_invariant_step : Inv (State.boot [0x80] 0) ∧ ∃ t, step (State.boot [0x80] 0) = .next t :=
  ⟨⟨by decide, by decide, by decide, by decide, by decide, by decide⟩, ⟨_, rfl⟩⟩
/-- EveryRunEnds: a running state that has used its whole budget. -/
theorem witness_run_in_progress : (State.boot [0xC0] 0).status = .running ∧ (State.boot [0xC0] 0).cycles ≤ (State.boot [0xC0] 0).budget := by
  decide
/-- RunOutcomeByInstructionCount: K = B (95_test_vectors.md T4), and K = B + 1 (T3). -/
theorem witness_instruction_counts :
    (State.boot [0x80] 1).EndsAfter 1 ∧ (∀ j ≤ 0, ((State.boot [0x80] 0).freeRun j).pc < [0x80#8].length) := by
  constructor
  · exact ⟨by decide, by decide⟩
  · decide
/-- ClockedBlockRealisesStep, PortsShowMachineState: a block of the narrowest widths for this program, driven by its run. -/
theorem witness_block :
    ∃ (s : State) (b : Block 6 2) (inp : BlockIn 6 2),
      Inv s ∧ WidthsSuffice 6 2 s ∧ b.Holds s ∧ inp.DrivenBy s ∧ inp.rst = false ∧ ∃ t, step s = .next t :=
  ⟨State.boot [0x80] 2, Block.reset 6 2, { rst := false, imemData := 0x80, imemLen := 1, cycleBudget := 2 },
    ⟨by decide, by decide, by decide, by decide, by decide, by decide⟩, by unfold WidthsSuffice; decide,
    ⟨rfl, rfl, rfl, rfl, rfl⟩, ⟨rfl, rfl, fun _ => rfl⟩, rfl, ⟨_, rfl⟩⟩
/-- ClockedBlockRealisesStep: an edge with reset, of a halted block. -/
theorem witness_block_reset_when_halted :
    ∃ (s : State) (b : Block 6 2) (inp : BlockIn 6 2),
      Inv s ∧ WidthsSuffice 6 2 s ∧ b.Holds s ∧ inp.DrivenBy s ∧ inp.rst = true ∧ s.status ≠ .running :=
  ⟨(State.boot [] 2).halt .haltedNormal, { Block.reset 6 2 with status := .haltedNormal },
    { rst := true, imemData := 0xFF, imemLen := 0, cycleBudget := 2 },
    ⟨by decide, by decide, by decide, by decide, by decide, by decide⟩, by unfold WidthsSuffice; decide,
    ⟨rfl, rfl, rfl, rfl, rfl⟩, ⟨rfl, rfl, fun h => absurd h (by decide)⟩, rfl, by decide⟩
/-- ClockedBlockRealisesStep: an edge without reset, of a block halted by the cycle limit. -/
theorem witness_block_halted :
    ∃ (s : State) (b : Block 6 2) (inp : BlockIn 6 2),
      Inv s ∧ WidthsSuffice 6 2 s ∧ b.Holds s ∧ inp.DrivenBy s ∧ inp.rst = false ∧ s.status ≠ .running :=
  ⟨{ State.boot [0xC0] 2 with cycles := 3, status := .haltedCycleLimit },
    { Block.reset 6 2 with cycles := 3, status := .haltedCycleLimit },
    { rst := false, imemData := 0xC0, imemLen := 1, cycleBudget := 2 },
    ⟨by decide, by decide, by decide, by decide, by decide, by decide⟩, by unfold WidthsSuffice; decide,
    ⟨rfl, rfl, rfl, rfl, rfl⟩, ⟨rfl, rfl, fun _ => rfl⟩, rfl, by decide⟩
/-- MalformedObjectLineGivesNoRun: a line with a character that is no digit. -/
theorem witness_malformed_line :
    (∀ line ∈ ["v2.0 raw".toList, "80".toList, "1g".toList], '\n' ∉ line) ∧ ∀ v : Byte, parseByteLine "1g".toList ≠ .ok v := by
  constructor
  · decide
  · intro v h
    have e : parseByteLine "1g".toList = .error .malformedObjectByte := rfl
    rw [e] at h
    cases h
/-- AssembledBranchesStayInProgram: a label at 64, and one at N. -/
theorem witness_label_out_of_range :
    (List.lookup "far".toList [("far".toList, 64)] = some 64 ∧ (64 : Nat) ≤ 64) ∧
    (List.lookup "end".toList [("end".toList, 4)] = some 4 ∧ (4 : Nat) ≤ 4) := by decide
/-- CommaIsRejected, LabelsNameTheirInstructions: a comma, a label of the last line, one bound twice, and one bound nowhere. -/
theorem witness_labels :
    let line : SourceLine := { label := some "end".toList, mnemonic := "bnz".toList, operands := ["end".toList] }
    ',' ∈ "r0,r1".toList ∧ [{ line with label := none }, line][1]? = some line ∧
    (∀ k < 2, ∀ other, [{ line with label := none }, line][k]? = some other → other.label = some "end".toList → k = 1) ∧ (labelTable 0 [{ line with label := none }, line]).lookup "end".toList = some 1 ∧
    [line, line][0]? = some line ∧ [line, line][1]? = some line ∧ line.label = some "end".toList ∧
    List.lookup "far".toList (labelTable 0 [line]) = none := by
  refine ⟨by decide, by decide, ?_, by decide, by decide, by decide, by decide, by decide⟩
  intro k hk other h hl
  interval_cases k
  · cases h; cases hl
  · rfl
/-- AssembledBranchesStayInProgram, AssembledLengthCountsLines: a program that assembles, with a branch. -/
theorem witness_assembled :
    assembleProgram "stop: bnz stop".toList = .ok [0xC0] ∧ decodeByte 0xC0 = .bnz 0 := ⟨rfl, by decide⟩

end Sys2Proof.Tests
end

section
/-! PROOFS. The zero flag: who writes it, who reads it (10_state.md R24, 41_alu.md R122). -/

namespace Sys2Proof.Machine

@[simp] theorem State.retire_z (s : State) : s.retire.z = s.z := by
  rw [State.retire_eq]

/-- The value v comes from the registers alone, so one v serves every Z the instruction may find. -/
theorem exec_of_destination {i : Instr} {rd : Reg} (hd : i.destination = some rd) (s : State) :
    ∃ v, ∀ b : Bool, exec i { s with z := b } =
      .next { s with x := s.x.set rd v, z := zeroFlag v, pc := s.pc + 1 } := by
  cases i with
  | add _ rn rm =>
    cases hd
    exact ⟨aluAdd (s.readReg rn) (s.readReg rm), fun b => finishAlu_eq rd _ { s with z := b }⟩
  | and _ rn rm =>
    cases hd
    exact ⟨aluAnd (s.readReg rn) (s.readReg rm), fun b => finishAlu_eq rd _ { s with z := b }⟩
  | not _ rn =>
    cases hd
    exact ⟨aluNot (s.readReg rn), fun b => finishAlu_eq rd _ { s with z := b }⟩
  | bnz target => cases hd

theorem exec_z_of_destination {i : Instr} {rd : Reg} {s t : State}
    (hd : i.destination = some rd) (h : exec i s = .next t) : t.z = decide (t.readReg rd = 0x00#8) := by
  obtain ⟨v, hv⟩ := exec_of_destination hd s
  cases h.symm.trans (hv s.z)
  simp [zeroFlag_eq_decide]

theorem exec_with_z_of_destination {i : Instr} {rd : Reg} (hd : i.destination = some rd) (s : State) (b : Bool) :
    exec i { s with z := b } = exec i s := by
  obtain ⟨v, hv⟩ := exec_of_destination hd s
  exact (hv b).trans (hv s.z).symm

theorem exists_destination_of_exec_z_ne {i : Instr} {s t : State} (h : exec i s = .next t) (hz : t.z ≠ s.z) :
    ∃ rd : Reg, i.destination = some rd := by
  obtain ⟨rd, _, hd, _⟩ | ⟨target, _, hbnz⟩ := exec_shape i s
  · exact ⟨rd, hd⟩
  · cases h.symm.trans hbnz
    exact absurd rfl hz

/-- The halting fetch and the retirement keep Z, so a change of Z is the executed instruction's. -/
theorem exists_destination_of_step_z_ne {s t : State} (h : step s = .next t) (hz : t.z ≠ s.z) :
    s.pc < s.imemLen ∧ ∃ rd : Reg, (decodeByte (s.imem.read s.pc)).destination = some rd := by
  obtain ⟨_, ⟨_, rfl⟩ | ⟨hpc, u, hexec, rfl⟩⟩ := step_cases h
  · exact absurd (State.halt_z s _) hz
  · rw [State.retire_z] at hz
    exact ⟨hpc, exists_destination_of_exec_z_ne hexec hz⟩

/-- Settles O6: a destination's new value decides Z whatever Z was, and a step that changes Z executed an instruction with a destination. -/
theorem onlyAluInstructionsWriteZero : Obligations.OnlyAluInstructionsWriteZero :=
  ⟨fun _ _ _ _ => exec_z_of_destination,
    fun _ _ s b hd => exec_with_z_of_destination hd s b,
    exec_bnz,
    fun _ _ => exists_destination_of_step_z_ne⟩

end Sys2Proof.Machine
end

section
/-! PROOFS. Memory: the store is read-only for the whole run, and no instruction reads or writes it (20_memory.md R51, R53, R62). -/

namespace Sys2Proof.Machine

/-! ### The parameters of a run -/

@[simp] theorem State.retire_imem (s : State) : s.retire.imem = s.imem := by
  rw [State.retire_eq]

@[simp] theorem State.retire_imemLen (s : State) : s.retire.imemLen = s.imemLen := by
  rw [State.retire_eq]

@[simp] theorem State.retire_budget (s : State) : s.retire.budget = s.budget := by
  rw [State.retire_eq]

/-- IMEM, N and B are the same in both states (10_state.md R32, 20_memory.md R53). -/
structure SameParameters (s t : State) : Prop where
  imem : t.imem = s.imem
  imemLen : t.imemLen = s.imemLen
  budget : t.budget = s.budget

theorem SameParameters.refl (s : State) : SameParameters s s := ⟨rfl, rfl, rfl⟩

theorem SameParameters.trans {s t u : State} (hst : SameParameters s t) (htu : SameParameters t u) :
    SameParameters s u :=
  ⟨htu.imem.trans hst.imem, htu.imemLen.trans hst.imemLen, htu.budget.trans hst.budget⟩

theorem exec_sameParameters {i : Instr} {s t : State} (h : exec i s = .next t) : SameParameters s t := by
  obtain ⟨_, _, _, halu⟩ | ⟨_, _, hbnz⟩ := exec_shape i s
  · cases h.symm.trans halu
    exact ⟨rfl, rfl, rfl⟩
  · cases h.symm.trans hbnz
    exact ⟨rfl, rfl, rfl⟩

theorem State.retire_sameParameters (s : State) : SameParameters s s.retire :=
  ⟨s.retire_imem, s.retire_imemLen, s.retire_budget⟩

theorem State.halt_sameParameters (s : State) (reason : RunStatus) : SameParameters s (s.halt reason) :=
  ⟨s.halt_imem reason, s.halt_imemLen reason, s.halt_budget reason⟩

theorem step_sameParameters {s t : State} (h : step s = .next t) : SameParameters s t := by
  obtain ⟨_, ⟨_, rfl⟩ | ⟨_, u, hexec, rfl⟩⟩ := step_cases h
  · exact s.halt_sameParameters _
  · exact (exec_sameParameters hexec).trans u.retire_sameParameters

theorem StepsTo.sameParameters {s t : State} {k : Nat} (h : StepsTo s k t) : SameParameters s t :=
  h.keeps (fun _ _ hs hstep => hs.trans (step_sameParameters hstep)) (.refl s)

/-! ### Fetches of a run -/

/-- A fetch reads nothing but IMEM and N (20_memory.md R52). -/
theorem SameParameters.ifetch_eq {s t : State} (h : SameParameters s t) (a : Nat) : t.ifetch a = s.ifetch a := by
  rw [State.ifetch, State.ifetch, h.imem, h.imemLen]

@[simp] theorem State.boot_imem (program : List Byte) (budget : Nat) :
    (State.boot program budget).imem = Memory.ofBytes 0 program := rfl

/-- The host's load puts the a-th byte at address a, and nothing beyond the program (20_memory.md R50, R52). -/
theorem State.ifetch_boot (program : List Byte) (budget a : Nat) :
    (State.boot program budget).ifetch a = program[a]? := by
  have hread : (State.boot program budget).imem.read a = program.getD a Memory.unlisted := by
    rw [State.boot_imem, ← Memory.read_ofBytes program 0 a, Nat.zero_add]
  by_cases ha : a < program.length
  · rw [State.ifetch_of_lt ha, hread, List.getElem?_eq_getElem ha, List.getD_eq_getElem _ _ ha]
  · have ha : program.length ≤ a := Nat.le_of_not_lt ha
    rw [State.ifetch_of_ge ha, List.getElem?_eq_none ha]

/-- Settles O22: the run keeps IMEM and N, so each fetch is the one the loaded machine would make. -/
theorem fetchesReadTheLoadedProgram : Obligations.FetchesReadTheLoadedProgram := by
  intro program budget k t hrun a
  rw [hrun.sameParameters.ifetch_eq, State.ifetch_boot]

/-! ### Instructions and the rest of the state -/

/-- Settles O7: the operands and the condition come from the registers and Z alone, so each instruction's equation has the same new registers, Z and pc for both states. -/
theorem instructionsIgnoreMemoryAndCounters : Obligations.InstructionsIgnoreMemoryAndCounters := by
  intro i s m n b c st
  cases i with
  | add rd rn rm => exact ⟨_, finishAlu_eq rd (aluAdd (s.readReg rn) (s.readReg rm)) s, finishAlu_eq rd _ _⟩
  | and rd rn rm => exact ⟨_, finishAlu_eq rd (aluAnd (s.readReg rn) (s.readReg rm)) s, finishAlu_eq rd _ _⟩
  | not rd rn => exact ⟨_, finishAlu_eq rd (aluNot (s.readReg rn)) s, finishAlu_eq rd _ _⟩
  | bnz target => exact ⟨_, exec_bnz target s, exec_bnz target _⟩

end Sys2Proof.Machine
end

section
/-! PROOFS. Encoding: what each byte decodes to (30_encoding.md R70 to R78). -/

namespace Sys2Proof

/-! ### What the decoder can answer -/

/-- The four branches of the decoder, each with the opcode that selects it (30_encoding.md R71 to R74). -/
theorem decodeByte_cases (b : Byte) :
    (opcodeField b = 0b00#2 ∧
      decodeByte b = .add (Reg.ofCode (rdField b)) (Reg.ofCode (rnField b)) (Reg.ofCode (rmField b))) ∨
    (opcodeField b = 0b01#2 ∧
      decodeByte b = .and (Reg.ofCode (rdField b)) (Reg.ofCode (rnField b)) (Reg.ofCode (rmField b))) ∨
    (opcodeField b = 0b10#2 ∧ decodeByte b = .not (Reg.ofCode (rdField b)) (Reg.ofCode (rnField b))) ∨
    (opcodeField b = 0b11#2 ∧ decodeByte b = .bnz (targetField b).toNat) := by
  have hop : ∀ c : BitVec 2, c = 0b00#2 ∨ c = 0b01#2 ∨ c = 0b10#2 ∨ c = 0b11#2 := by decide
  obtain h | h | h | h := hop (opcodeField b) <;> simp [decodeByte, h]

@[simp] theorem decodeByte_opcode (b : Byte) : (decodeByte b).opcode = opcodeField b := by
  obtain ⟨hop, hdec⟩ | ⟨hop, hdec⟩ | ⟨hop, hdec⟩ | ⟨hop, hdec⟩ := decodeByte_cases b <;>
    rw [hop, hdec, Instr.opcode]

/-- Register operands always have an encoding; the target does because its field is 6 bits wide (30_encoding.md R73). -/
@[simp] theorem decodeByte_wellFormed (b : Byte) : (decodeByte b).wellFormed = true := by
  obtain ⟨_, hdec⟩ | ⟨_, hdec⟩ | ⟨_, hdec⟩ | ⟨_, hdec⟩ := decodeByte_cases b <;> rw [hdec]
  · rfl
  · rfl
  · rfl
  · exact decide_eq_true (targetField b).isLt

/-! ### The opcode names the instruction -/

theorem Instr.opcode_eq_add_iff {i : Instr} : i.opcode = 0b00#2 ↔ ∃ rd rn rm : Reg, i = .add rd rn rm := by
  cases i <;> simp [Instr.opcode]

theorem Instr.opcode_eq_and_iff {i : Instr} : i.opcode = 0b01#2 ↔ ∃ rd rn rm : Reg, i = .and rd rn rm := by
  cases i <;> simp [Instr.opcode]

theorem Instr.opcode_eq_not_iff {i : Instr} : i.opcode = 0b10#2 ↔ ∃ rd rn : Reg, i = .not rd rn := by
  cases i <;> simp [Instr.opcode]

theorem Instr.opcode_eq_bnz_iff {i : Instr} : i.opcode = 0b11#2 ↔ ∃ target : Nat, i = .bnz target := by
  cases i <;> simp [Instr.opcode]

/-! ### The opcode as a byte range -/

/-- Bits 7-6 count the blocks of 64 byte values below the byte (30_encoding.md R70, R74). -/
theorem opcodeField_toNat (b : Byte) : (opcodeField b).toNat = b.toNat / 64 := by
  have hb := b.isLt
  rw [opcodeField, BitVec.extractLsb'_toNat, Nat.shiftRight_eq_div_pow]
  omega

/-- A byte decodes to an instruction with opcode c exactly when it lies in the c-th block of 64 byte values. -/
theorem decodeByte_opcode_eq_iff (b : Byte) (c : BitVec 2) :
    (decodeByte b).opcode = c ↔ b.toNat / 64 = c.toNat := by
  rw [decodeByte_opcode, ← BitVec.toNat_inj, opcodeField_toNat]

/-- Settles O16: the instruction is the one its opcode names, and the opcode is the byte's block of 64 values. -/
theorem opcodeAloneSelectsInstruction : Obligations.OpcodeAloneSelectsInstruction := by
  intro b
  have hb := b.isLt
  rw [← Instr.opcode_eq_add_iff, ← Instr.opcode_eq_and_iff, ← Instr.opcode_eq_not_iff, ← Instr.opcode_eq_bnz_iff]
  simp only [decodeByte_opcode_eq_iff, BitVec.toNat_ofNat]
  refine ⟨decodeByte_wellFormed b, ?_, ?_, ?_, ?_⟩ <;> omega

end Sys2Proof
end

section
/-! PROOFS. The execution cycle: what a step runs, where it leaves pc, what it counts, and its pseudocode (40_execution_cycle.md R100 to R109). -/

namespace Sys2Proof.Machine

/-! ### The fetch -/

/-- Settles O9: the two arms of the fetch (R101). -/
theorem fetchPastProgramHaltsNormally : Obligations.FetchPastProgramHaltsNormally :=
  ⟨fun _ hrun hpc => step_of_ge hrun hpc,
    fun _ hrun hpc => ⟨State.ifetch_of_lt hpc, step_of_lt hrun hpc⟩⟩

theorem State.ifetch_eq_some {s : State} {a : Nat} {byte : Byte} (h : s.ifetch a = some byte) :
    a < s.imemLen ∧ s.imem.read a = byte := by
  by_cases ha : a < s.imemLen
  · rw [State.ifetch_of_lt ha] at h
    exact ⟨ha, Option.some.inj h⟩
  · rw [State.ifetch_of_ge (Nat.le_of_not_lt ha)] at h
    cases h

/-! ### The step that executes an instruction -/

@[simp] theorem State.retire_pc (s : State) : s.retire.pc = s.pc := by
  rw [State.retire_eq]

theorem exec_completes (i : Instr) (s : State) : ∃ t : State, exec i s = .next t := by
  obtain ⟨_, _, _, halu⟩ | ⟨_, _, hbnz⟩ := exec_shape i s
  · exact ⟨_, halu⟩
  · exact ⟨_, hbnz⟩

/-- The counter and the status are the step's business, not the instruction's (log 4). -/
theorem exec_keeps_cycles_status {i : Instr} {s t : State} (h : exec i s = .next t) :
    t.cycles = s.cycles ∧ t.status = s.status := by
  obtain ⟨_, _, _, halu⟩ | ⟨_, _, hbnz⟩ := exec_shape i s
  · cases h.symm.trans halu
    exact ⟨rfl, rfl⟩
  · cases h.symm.trans hbnz
    exact ⟨rfl, rfl⟩

/-- Retirement in terms of the state before the instruction: the count and the check read its counter and budget (R105, R106). -/
theorem retire_of_exec {i : Instr} {s u : State} (hrun : s.status = .running) (h : exec i s = .next u) :
    u.retire =
      { u with
        cycles := s.cycles + 1
        status := if s.cycles + 1 > s.budget then .haltedCycleLimit else .running } := by
  obtain ⟨hcycles, hstatus⟩ := exec_keeps_cycles_status h
  rw [State.retire_eq, hcycles, hstatus, hrun, (exec_sameParameters h).budget]

/-- Settles O10: the fetched byte decodes to i, exec completes, and retirement counts and checks. -/
theorem stepRunsDecodedInstruction : Obligations.StepRunsDecodedInstruction := by
  intro s byte i hrun hfetch hdecode
  obtain ⟨hpc, hread⟩ := State.ifetch_eq_some hfetch
  cases hdecode
  obtain ⟨u, hexec⟩ := exec_completes (decodeByte byte) s
  refine ⟨u, hexec, ?_⟩
  rw [step_of_lt hrun hpc, hread, hexec, retireOutcome, retire_of_exec hrun hexec]

/-! ### The program counter -/

theorem exec_bnz_taken {s : State} (hz : s.z = false) (target : Nat) :
    exec (.bnz target) s = .next (s.jump target) := by
  rw [exec_bnz, if_neg (ne_true_of_eq_false hz)]
  rfl

theorem exec_bnz_not_taken {s : State} (hz : s.z = true) (target : Nat) :
    exec (.bnz target) s = .next s.advance := by
  rw [exec_bnz, if_pos hz]
  rfl

theorem exec_pc_of_taken {target : Nat} {s t : State} (h : exec (.bnz target) s = .next t) (hz : s.z = false) :
    t.pc = target := by
  cases h.symm.trans (exec_bnz_taken hz target)
  rfl

theorem exec_pc_of_not_taken {i : Instr} {s t : State} (h : exec i s = .next t)
    (hi : (∀ target : Nat, i ≠ .bnz target) ∨ s.z = true) : t.pc = s.pc + 1 := by
  obtain ⟨_, _, _, halu⟩ | ⟨target, rfl, _⟩ := exec_shape i s
  · cases h.symm.trans halu
    rfl
  · have hz : s.z = true := hi.resolve_left fun hne => hne target rfl
    cases h.symm.trans (exec_bnz_not_taken hz target)
    rfl

/-- Settles O11: retirement leaves pc where the executed instruction put it. -/
theorem pcAdvancesOrBranches : Obligations.PcAdvancesOrBranches := by
  intro s t hpc hstep
  obtain ⟨_, ⟨hge, _⟩ | ⟨_, u, hexec, rfl⟩⟩ := step_cases hstep
  · omega
  · rw [State.retire_pc]
    refine ⟨fun target hdec hz => ?_, exec_pc_of_not_taken hexec⟩
    rw [hdec] at hexec
    exact exec_pc_of_taken hexec hz

/-! ### The cycle counter and the budget -/

/-- What a step that executed an instruction does to the counter and the status (R105, R106). -/
theorem step_counts {s t : State} (hpc : s.pc < s.imemLen) (h : step s = .next t) :
    t.cycles = s.cycles + 1 ∧
    t.status = if s.cycles + 1 > s.budget then .haltedCycleLimit else .running := by
  obtain ⟨hrun, ⟨hge, _⟩ | ⟨_, u, hexec, rfl⟩⟩ := step_cases h
  · omega
  · rw [retire_of_exec hrun hexec]
    exact ⟨rfl, rfl⟩

/-- The count exceeds the budget by at most one, and not at all while the machine runs (R106). -/
structure State.WithinBudget (s : State) : Prop where
  running : s.status = .running → s.cycles ≤ s.budget
  always : s.cycles ≤ s.budget + 1

theorem State.boot_withinBudget (program : List Byte) (budget : Nat) : (State.boot program budget).WithinBudget :=
  ⟨fun _ => Nat.zero_le _, Nat.zero_le _⟩

theorem step_keeps_withinBudget {s t : State} (hs : s.WithinBudget) (h : step s = .next t) : t.WithinBudget := by
  obtain ⟨hrun, ⟨_, rfl⟩ | ⟨hpc, _⟩⟩ := step_cases h
  · exact ⟨fun hr => (nomatch hr), hs.always⟩
  · obtain ⟨hcycles, hstatus⟩ := step_counts hpc h
    have hbudget := (step_sameParameters h).budget
    have hle := hs.running hrun
    refine ⟨fun hr => ?_, by omega⟩
    rw [hstatus] at hr
    split at hr
    · cases hr
    · omega

/-- Each step of a run is one executed instruction, but for the halting fetch, after which no step follows (R101, R105, R108). -/
theorem StepsTo.cycles_eq {s t : State} {k : Nat} (h : StepsTo s k t) (hs : s.status ≠ .haltedNormal) :
    (t.status = .haltedNormal → t.cycles + 1 = s.cycles + k) ∧
    (t.status ≠ .haltedNormal → t.cycles = s.cycles + k) := by
  induction h with
  | refl => exact ⟨fun hn => absurd hn hs, fun _ => rfl⟩
  | @tail t u k _ hstep ih =>
    obtain ⟨hrun, hcases⟩ := step_cases hstep
    have hcount : t.cycles = s.cycles + k := ih.2 (by rw [hrun]; decide)
    obtain ⟨_, rfl⟩ | ⟨hpc, _⟩ := hcases
    · refine ⟨fun _ => ?_, fun hne => absurd rfl hne⟩
      rw [State.halt_cycles]
      omega
    · obtain ⟨hcycles, hstatus⟩ := step_counts hpc hstep
      refine ⟨fun hn => ?_, fun _ => by omega⟩
      rw [hstatus] at hn
      split at hn <;> cases hn

/-- Settles O25: by induction over the run for the count, the budget bound kept by every step, and one step's count. -/
theorem cycleCounterCountsInstructions : Obligations.CycleCounterCountsInstructions := by
  refine ⟨fun program budget k t hrun => ?_, fun s t hpc hstep => ?_⟩
  · obtain ⟨hnormal, hother⟩ := hrun.cycles_eq (by decide : RunStatus.running ≠ .haltedNormal)
    have hbound := hrun.keeps (fun _ _ => step_keeps_withinBudget) (State.boot_withinBudget program budget)
    have hbudget : t.budget = budget := hrun.sameParameters.budget
    have hzero : (State.boot program budget).cycles = 0 := rfl
    rw [hzero, Nat.zero_add] at hnormal hother
    exact ⟨hnormal, hother, hbudget ▸ hbound.always⟩
  · obtain ⟨hcycles, hstatus⟩ := step_counts hpc hstep
    rw [hcycles, hstatus]
    exact ⟨rfl, by simp⟩

/-! ### The fields of a byte by division -/

theorem rdField_index (b : Byte) : b.toNat / 16 % 4 = (Reg.ofCode (rdField b)).code.toNat := by
  rw [Reg.code_ofCode, rdField, BitVec.extractLsb'_toNat, Nat.shiftRight_eq_div_pow]

theorem rnField_index (b : Byte) : b.toNat / 4 % 4 = (Reg.ofCode (rnField b)).code.toNat := by
  rw [Reg.code_ofCode, rnField, BitVec.extractLsb'_toNat, Nat.shiftRight_eq_div_pow]

theorem rmField_index (b : Byte) : b.toNat % 4 = (Reg.ofCode (rmField b)).code.toNat := by
  rw [Reg.code_ofCode, rmField, BitVec.extractLsb'_toNat, Nat.shiftRight_zero]

theorem targetField_toNat (b : Byte) : (targetField b).toNat = b.toNat % 64 := by
  rw [targetField, BitVec.extractLsb'_toNat, Nat.shiftRight_zero]

theorem opcode_by_division {b : Byte} {c : BitVec 2} (h : opcodeField b = c) : b.toNat / 64 % 4 = c.toNat := by
  rw [← h, opcodeField_toNat]
  have hb := b.isLt
  omega

/-! ### R109's variables and the machine's operations -/

theorem State.toPseudo_x_getD (s : State) (r : Reg) : s.toPseudo.x.getD r.code.toNat 0 = (s.readReg r).toNat := by
  cases r <;> rfl

/-- The pseudocode's `x[rd] <- v; Z <- (v == 0)`. -/
theorem State.toPseudo_writeResult (s : State) (rd : Reg) (v : Byte) :
    (s.writeResult rd v).toPseudo =
      { s.toPseudo with x := s.toPseudo.x.set rd.code.toNat v.toNat, z := decide (v.toNat = 0) } := by
  rw [State.writeResult_eq, zeroFlag_eq_toNat]
  cases rd <;> rfl

/-- Retirement is the pseudocode's count and budget check, once the machine's pc is already where it belongs. -/
theorem State.toPseudo_retire (s : State) : s.retire.toPseudo = pseudoAdvance s.budget s.toPseudo true := by
  rw [State.retire_eq]
  rfl

theorem pseudoAdvance_toPseudo_false (budget : Nat) (s : State) :
    pseudoAdvance budget s.toPseudo false = pseudoAdvance budget s.advance.toPseudo true := rfl

/-! ### R109's `case op of`, one lemma an instruction -/

theorem pseudoExecute_add {b : Byte} (hop : opcodeField b = 0b00#2) (s : State) :
    pseudoExecute b.toNat s.toPseudo =
      ((s.writeResult (Reg.ofCode (rdField b))
        (aluAdd (s.readReg (Reg.ofCode (rnField b))) (s.readReg (Reg.ofCode (rmField b))))).toPseudo, false) := by
  have hdiv : b.toNat / 64 % 4 = 0 := opcode_by_division hop
  simp only [pseudoExecute, hdiv, ↓reduceIte, rdField_index, rnField_index, rmField_index,
    State.toPseudo_x_getD, State.toPseudo_writeResult, aluAdd_toNat]

theorem pseudoExecute_and {b : Byte} (hop : opcodeField b = 0b01#2) (s : State) :
    pseudoExecute b.toNat s.toPseudo =
      ((s.writeResult (Reg.ofCode (rdField b))
        (aluAnd (s.readReg (Reg.ofCode (rnField b))) (s.readReg (Reg.ofCode (rmField b))))).toPseudo, false) := by
  have hdiv : b.toNat / 64 % 4 = 1 := opcode_by_division hop
  simp only [pseudoExecute, hdiv, one_ne_zero, ↓reduceIte, rdField_index, rnField_index, rmField_index,
    State.toPseudo_x_getD, State.toPseudo_writeResult, aluAnd_toNat]

theorem pseudoExecute_not {b : Byte} (hop : opcodeField b = 0b10#2) (s : State) :
    pseudoExecute b.toNat s.toPseudo =
      ((s.writeResult (Reg.ofCode (rdField b)) (aluNot (s.readReg (Reg.ofCode (rnField b))))).toPseudo, false) := by
  have hdiv : b.toNat / 64 % 4 = 2 := opcode_by_division hop
  simp only [pseudoExecute, hdiv, OfNat.ofNat_ne_zero, OfNat.ofNat_ne_one, ↓reduceIte, rdField_index, rnField_index,
    State.toPseudo_x_getD, State.toPseudo_writeResult, aluNot_toNat]

theorem pseudoExecute_bnz_taken {b : Byte} {s : State} (hop : opcodeField b = 0b11#2) (hz : s.z = false) :
    pseudoExecute b.toNat s.toPseudo = ((s.jump (targetField b).toNat).toPseudo, true) := by
  have hdiv : b.toNat / 64 % 4 = 3 := opcode_by_division hop
  simp only [pseudoExecute, hdiv, OfNat.ofNat_ne_zero, OfNat.ofNat_ne_one, Nat.reduceEqDiff, ↓reduceIte,
    targetField_toNat]
  exact if_pos hz

theorem pseudoExecute_bnz_not_taken {b : Byte} {s : State} (hop : opcodeField b = 0b11#2) (hz : s.z = true) :
    pseudoExecute b.toNat s.toPseudo = (s.toPseudo, false) := by
  have hdiv : b.toNat / 64 % 4 = 3 := opcode_by_division hop
  simp only [pseudoExecute, hdiv, OfNat.ofNat_ne_zero, OfNat.ofNat_ne_one, Nat.reduceEqDiff, ↓reduceIte]
  exact if_neg (ne_false_of_eq_true hz)

/-! ### The simulation -/

/-- R109 after its fetch, of the machine s and a byte: the `case op of`, the advance, the count and the budget check. -/
def State.pseudoInstruction (s : State) (b : Byte) : PseudoState :=
  pseudoAdvance s.budget (pseudoExecute b.toNat s.toPseudo).1 (pseudoExecute b.toNat s.toPseudo).2

/-- Where the pseudocode has not taken a branch, its `if not taken` is the machine's advance (R104). -/
theorem advance_retire_toPseudo {b : Byte} {s u : State} (hbudget : u.budget = s.budget)
    (h : pseudoExecute b.toNat s.toPseudo = (u.toPseudo, false)) :
    u.advance.retire.toPseudo = s.pseudoInstruction b := by
  rw [State.pseudoInstruction, h, pseudoAdvance_toPseudo_false, State.toPseudo_retire, State.advance_budget, hbudget]

/-- The commuting square of one instruction: exec, then retirement, is R109 after its fetch. -/
theorem exec_retire_toPseudo {b : Byte} {s u : State} (hexec : exec (decodeByte b) s = .next u) :
    u.retire.toPseudo = s.pseudoInstruction b := by
  obtain ⟨hop, hdec⟩ | ⟨hop, hdec⟩ | ⟨hop, hdec⟩ | ⟨hop, hdec⟩ := decodeByte_cases b <;> rw [hdec] at hexec
  · cases hexec
    exact advance_retire_toPseudo rfl (pseudoExecute_add hop s)
  · cases hexec
    exact advance_retire_toPseudo rfl (pseudoExecute_and hop s)
  · cases hexec
    exact advance_retire_toPseudo rfl (pseudoExecute_not hop s)
  · cases hz : s.z with
    | false =>
      cases hexec.symm.trans (exec_bnz_taken hz _)
      rw [State.pseudoInstruction, pseudoExecute_bnz_taken hop hz, State.toPseudo_retire, State.jump_budget]
    | true =>
      cases hexec.symm.trans (exec_bnz_not_taken hz _)
      exact advance_retire_toPseudo rfl (pseudoExecute_bnz_not_taken hop hz)

theorem pseudoStep_of_ge {s : State} (imem : Nat → Nat) (h : s.imemLen ≤ s.pc) :
    pseudoStep imem s.imemLen s.budget s.toPseudo = (s.halt .haltedNormal).toPseudo :=
  if_pos h

theorem pseudoStep_of_lt {s : State} (h : s.pc < s.imemLen) :
    pseudoStep (fun a => (s.imem.read a).toNat) s.imemLen s.budget s.toPseudo =
      s.pseudoInstruction (s.imem.read s.pc) :=
  if_neg (Nat.not_le.mpr h)

theorem step_completes {s : State} (hrun : s.status = .running) : ∃ t : State, step s = .next t := by
  by_cases hpc : s.pc < s.imemLen
  · obtain ⟨u, hexec⟩ := exec_completes (decodeByte (s.imem.read s.pc)) s
    exact ⟨u.retire, by rw [step_of_lt hrun hpc, hexec, retireOutcome]⟩
  · exact ⟨_, step_of_ge hrun (Nat.le_of_not_lt hpc)⟩

/-- The step and R109 commute with the reading of a state in R109's variables. -/
theorem step_toPseudo {s t : State} (h : step s = .next t) :
    t.toPseudo = pseudoStep (fun a => (s.imem.read a).toNat) s.imemLen s.budget s.toPseudo := by
  obtain ⟨_, ⟨hpc, rfl⟩ | ⟨hpc, u, hexec, rfl⟩⟩ := step_cases h
  · exact (pseudoStep_of_ge _ hpc).symm
  · rw [pseudoStep_of_lt hpc, exec_retire_toPseudo hexec]

/-- Settles O14: a running machine steps, its step commutes with R109, and no step changes a parameter. -/
theorem stepIsThePseudocode : Obligations.StepIsThePseudocode := by
  intro s hrun
  obtain ⟨t, hstep⟩ := step_completes hrun
  have hparam := step_sameParameters hstep
  exact ⟨t, hstep, step_toPseudo hstep, hparam.imem, hparam.imemLen, hparam.budget⟩

end Sys2Proof.Machine
end

section
/-! PROOFS. Assembler text: a source of one line, its mnemonic and operands one space apart (30_encoding.md R80 to R82). -/

namespace Sys2Proof.Machine

/-! ### Tokens and the line they make -/

/-- The characters that end a line, a label or a token, begin a comment, or are rejected or trimmed (30_encoding.md R80, R81, R83). -/
def reservedChars : List Char := ['\n', ';', ':', ',', ' ', '\t', '\r']

/-- A token that no part of the reader cuts or refuses. -/
structure PlainToken (token : Text) : Prop where
  nonempty : token ≠ []
  plain : ∀ c ∈ token, c ∉ reservedChars

theorem regToken_plain (r : Reg) : PlainToken (regToken r) := by
  cases r <;> exact ⟨by decide, by simp [regToken, reservedChars]⟩

theorem validMnemonics_plain : ∀ mnemonic ∈ validMnemonics, PlainToken mnemonic := by
  simp only [validMnemonics, List.forall_mem_cons]
  refine ⟨?_, ?_, ?_, ?_, by simp⟩ <;> exact ⟨by decide, by simp [reservedChars]⟩

/-- The tokens of an instruction, one space apart (30_encoding.md R81). -/
def instructionText : Text → List Text → Text
  | mnemonic, [] => mnemonic
  | mnemonic, operand :: operands => mnemonic ++ ' ' :: instructionText operand operands

theorem mem_instructionText {c : Char} {mnemonic : Text} {operands : List Text}
    (h : c ∈ instructionText mnemonic operands) : c = ' ' ∨ ∃ token ∈ mnemonic :: operands, c ∈ token := by
  induction operands generalizing mnemonic with
  | nil => exact .inr ⟨mnemonic, List.mem_cons_self, h⟩
  | cons operand operands ih =>
    obtain hm | rfl | hc : c ∈ mnemonic ∨ c = ' ' ∨ c ∈ instructionText operand operands := by
      simpa [instructionText] using h
    · exact .inr ⟨mnemonic, List.mem_cons_self, hm⟩
    · exact .inl rfl
    · exact (ih hc).imp_right fun ⟨token, ht, hct⟩ => ⟨token, List.mem_cons_of_mem _ ht, hct⟩

theorem PlainToken.not_blank {token : Text} (h : PlainToken token) {c : Char} (hc : c ∈ token) :
    isBlankChar c = false := by
  have hplain := h.plain c hc
  simp only [reservedChars, List.mem_cons, not_or] at hplain
  simp [isBlankChar, hplain]

theorem trimText_eq_self {t : Text} (hhead : ∀ c ∈ t.head?, isBlankChar c = false)
    (hlast : ∀ c ∈ t.getLast?, isBlankChar c = false) : trimText t = t := by
  have keep : ∀ u : Text, (∀ c ∈ u.head?, isBlankChar c = false) → u.dropWhile isBlankChar = u := by
    intro u hu
    cases u with
    | nil => rfl
    | cons c u => exact List.dropWhile_cons_of_neg (Bool.eq_false_iff.mp (hu c rfl))
  rw [trimText, keep t hhead, keep t.reverse (by rwa [List.head?_reverse]), List.reverse_reverse]

theorem splitAtChar_of_not_mem {sep : Char} {piece : Text} (h : sep ∉ piece) : splitAtChar sep piece = [piece] := by
  induction piece with
  | nil => rfl
  | cons c piece ih =>
    rw [List.mem_cons, not_or] at h
    rw [splitAtChar, if_neg (fun hc => h.1 hc.symm), ih h.2]

theorem textLines_of_not_mem {t : Text} (hne : t ≠ []) (h : '\n' ∉ t) : textLines t = [t] := by
  rw [textLines, splitAtChar_of_not_mem h, dropLastEmpty, if_neg hne]

/-! ### Reading the line back -/

section
variable {mnemonic : Text} {operands : List Text} (h : ∀ token ∈ mnemonic :: operands, PlainToken token)
include h

/-- The space is the only reserved character of the line. -/
theorem not_mem_instructionText {c : Char} (hc : c ∈ reservedChars) (hspace : c ≠ ' ') :
    c ∉ instructionText mnemonic operands := fun hmem => by
  obtain hc' | ⟨token, ht, hct⟩ := mem_instructionText hmem
  · exact hspace hc'
  · exact (h token ht).plain c hct hc

theorem instructionText_ne_nil : instructionText mnemonic operands ≠ [] := by
  have hm := (h mnemonic List.mem_cons_self).nonempty
  cases operands <;> simp [instructionText, hm]

theorem trimText_instructionText :
    trimText (instructionText mnemonic operands) = instructionText mnemonic operands := by
  refine trimText_eq_self (fun c hc => ?_) (fun c hc => ?_)
  · have hm := h mnemonic List.mem_cons_self
    refine hm.not_blank (List.mem_of_mem_head? ?_)
    cases operands with
    | nil => exact hc
    | cons operand operands => rwa [instructionText, List.head?_append_of_ne_nil _ hm.nonempty] at hc
  · induction operands generalizing mnemonic with
    | nil => exact (h mnemonic List.mem_cons_self).not_blank (List.mem_of_mem_getLast? hc)
    | cons operand operands ih =>
      have htail := fun token ht => h token (List.mem_cons_of_mem _ ht)
      refine ih htail ?_
      rwa [instructionText, List.getLast?_append_of_ne_nil _ (List.cons_ne_nil _ _),
        List.getLast?_cons_of_ne_nil (instructionText_ne_nil htail)] at hc

theorem splitAtChar_instructionText :
    splitAtChar ' ' (instructionText mnemonic operands) = mnemonic :: operands := by
  have hspace : ' ' ∉ mnemonic := fun hmem =>
    (h mnemonic List.mem_cons_self).plain ' ' hmem (by decide)
  induction operands generalizing mnemonic with
  | nil => exact splitAtChar_of_not_mem hspace
  | cons operand operands ih =>
    have htail := fun token ht => h token (List.mem_cons_of_mem _ ht)
    rw [instructionText, splitAtChar_piece hspace,
      ih htail fun hmem => (htail operand List.mem_cons_self).plain ' ' hmem (by decide)]

theorem readInstruction_instructionText (label : Option Text) :
    readInstruction label (instructionText mnemonic operands) =
      .ok { label := label, mnemonic := mnemonic, operands := operands } := by
  have hcomma : ',' ∉ instructionText mnemonic operands := not_mem_instructionText h (by decide) (by decide)
  have hform : ¬ (mnemonic :: operands).any (fun token => token.isEmpty || token.any isBlankChar) := by
    rw [List.any_eq_true]
    rintro ⟨token, ht, hbad⟩
    obtain hempty | hblank := Bool.or_eq_true_iff.mp hbad
    · exact (h token ht).nonempty (List.isEmpty_iff.mp hempty)
    · obtain ⟨c, hc, hblank⟩ := List.any_eq_true.mp hblank
      exact Bool.eq_false_iff.mp ((h token ht).not_blank hc) hblank
  rw [readInstruction, if_neg hcomma, splitAtChar_instructionText h]
  exact if_neg hform

theorem readLine_instructionText :
    readLine (instructionText mnemonic operands) =
      .ok (some { label := none, mnemonic := mnemonic, operands := operands }) := by
  have hcomment : ';' ∉ instructionText mnemonic operands := not_mem_instructionText h (by decide) (by decide)
  have hcolon : ':' ∉ instructionText mnemonic operands := not_mem_instructionText h (by decide) (by decide)
  have hcode : (instructionText mnemonic operands).takeWhile (· ≠ ';') = instructionText mnemonic operands :=
    List.takeWhile_eq_self_iff.mpr fun c hc => decide_eq_true fun heq => hcomment (heq ▸ hc)
  rw [readLine, hcode, trimText_instructionText h]
  simp only [if_neg (instructionText_ne_nil h), if_neg hcolon, readInstruction_instructionText h]
  rfl

theorem sourceLines_instructionText :
    sourceLines (instructionText mnemonic operands) =
      .ok [{ label := none, mnemonic := mnemonic, operands := operands }] := by
  have hlines : textLines (instructionText mnemonic operands) = [instructionText mnemonic operands] :=
    textLines_of_not_mem (instructionText_ne_nil h) (not_mem_instructionText h (by decide) (by decide))
  simp [sourceLines, hlines, collect, readLine_instructionText h]

/-- A source of one plain line is a program of one byte, its label table empty. -/
theorem assembleProgram_instructionText {i : Instr}
    (hi : assembleLine [] 1 { label := none, mnemonic := mnemonic, operands := operands } = .ok i) :
    assembleProgram (instructionText mnemonic operands) = .ok [encodeByte i] := by
  simp [assembleProgram, assemble, sourceLines_instructionText h, assembleLines, labelTable, collect, hi,
    Except.map]

end

/-! ### Register operands -/

theorem readRegister_regToken (r : Reg) : readRegister (regToken r) = .ok r := by
  cases r <;> rfl

theorem collect_map {α β ε : Type} {f : β → Except ε α} {g : α → β} (hfg : ∀ a, f (g a) = .ok a) (l : List α) :
    collect f (l.map g) = .ok l := by
  induction l with
  | nil => rfl
  | cons a l ih => rw [List.map_cons, collect, hfg, ih]

theorem readRegisters_regTokens (rs : List Reg) : readRegisters rs.length (rs.map regToken) = .ok rs := by
  simp [readRegisters, collect_map readRegister_regToken]

/-- The mnemonic decides what the register operands make (30_encoding.md R81). -/
theorem assembleProgram_registers {mnemonic : Text} (rs : List Reg) {i : Instr} (hm : PlainToken mnemonic)
    (hi : assembleLine [] 1 { label := none, mnemonic := mnemonic, operands := rs.map regToken } = .ok i) :
    assembleProgram (instructionText mnemonic (rs.map regToken)) = .ok [encodeByte i] := by
  refine assembleProgram_instructionText (List.forall_mem_cons.mpr ⟨hm, fun token ht => ?_⟩) hi
  obtain ⟨r, _, rfl⟩ := List.mem_map.mp ht
  exact regToken_plain r

theorem assembleLine_add {labels : LabelTable} {n : Nat} {line : SourceLine} {rd rn rm : Reg}
    (hm : line.mnemonic = "add".toList) (ho : readRegisters 3 line.operands = .ok [rd, rn, rm]) :
    assembleLine labels n line = .ok (.add rd rn rm) := by
  rw [assembleLine, if_pos hm, ho]

theorem assembleLine_and {labels : LabelTable} {n : Nat} {line : SourceLine} {rd rn rm : Reg}
    (hm : line.mnemonic = "and".toList) (ho : readRegisters 3 line.operands = .ok [rd, rn, rm]) :
    assembleLine labels n line = .ok (.and rd rn rm) := by
  rw [assembleLine, if_neg (by rw [hm]; decide), if_pos hm, ho]

theorem assembleLine_not {labels : LabelTable} {n : Nat} {line : SourceLine} {rd rn : Reg}
    (hm : line.mnemonic = "not".toList) (ho : readRegisters 2 line.operands = .ok [rd, rn]) :
    assembleLine labels n line = .ok (.not rd rn) := by
  rw [assembleLine, if_neg (by rw [hm]; decide), if_neg (by rw [hm]; decide), if_pos hm, ho]

end Sys2Proof.Machine
end

section
/-! PROOFS. The ALU instructions, each from its source line to its result (41_alu.md R123 to R125). -/

namespace Sys2Proof.Machine

/-! ### Match and mask -/

/-- The mask 0xC0 keeps the opcode (30_encoding.md R74). -/
theorem opcodeField_and_mask (b : Byte) : opcodeField (b &&& 0xC0#8) = opcodeField b := by
  have hmask : (0xC0#8).extractLsb' 6 2 = BitVec.allOnes 2 := by decide
  rw [opcodeField, BitVec.extractLsb'_and, hmask, BitVec.and_allOnes, opcodeField]

theorem decodeByte_of_match_add {b : Byte} (h : b &&& 0xC0#8 = 0x00#8) :
    decodeByte b = .add (Reg.ofCode (rdField b)) (Reg.ofCode (rnField b)) (Reg.ofCode (rmField b)) := by
  have hop : opcodeField b = 0b00#2 := by rw [← opcodeField_and_mask, h]; decide
  simp [decodeByte, hop]

theorem decodeByte_of_match_and {b : Byte} (h : b &&& 0xC0#8 = 0x40#8) :
    decodeByte b = .and (Reg.ofCode (rdField b)) (Reg.ofCode (rnField b)) (Reg.ofCode (rmField b)) := by
  have hop : opcodeField b = 0b01#2 := by rw [← opcodeField_and_mask, h]; decide
  simp [decodeByte, hop]

theorem decodeByte_of_match_not {b : Byte} (h : b &&& 0xC0#8 = 0x80#8) :
    decodeByte b = .not (Reg.ofCode (rdField b)) (Reg.ofCode (rnField b)) := by
  have hop : opcodeField b = 0b10#2 := by rw [← opcodeField_and_mask, h]; decide
  simp [decodeByte, hop]

/-! ### The write-back -/

/-- The result is read back from the destination, also when the destination is an operand (41_alu.md R122). -/
theorem finishAlu_result (rd : Reg) (v : Byte) (s : State) :
    ∃ t : State, finishAlu rd v s = .next t ∧ t.readReg rd = v ∧ t.z = decide (v.toNat = 0) ∧ t.pc = s.pc + 1 :=
  ⟨_, finishAlu_eq rd v s, RegFile.get_set_same _ _ _, zeroFlag_eq_toNat v, rfl⟩

/-! ### The three instructions -/

/-- Settles O1: the source line is read back to its tokens, the mask keeps the opcode, and the wrapped sum is what the write-back leaves. -/
theorem addWrapsAndSetsZero : Obligations.AddWrapsAndSetsZero := by
  refine ⟨fun rd rn rm => ?_, fun b => decodeByte_of_match_add, fun rd rn rm s => ?_⟩
  · have hasm := assembleProgram_registers [rd, rn, rm] (validMnemonics_plain "add".toList (by decide))
      (assembleLine_add rfl (readRegisters_regTokens [rd, rn, rm]))
    simpa [instructionText, encodeByte, packFields] using hasm
  · obtain ⟨t, hexec, hread, hz, hpc⟩ := finishAlu_result rd (aluAdd (s.readReg rn) (s.readReg rm)) s
    rw [aluAdd_toNat] at hz
    exact ⟨t, hexec, by rw [hread, aluAdd_toNat], hz, hpc⟩

/-- Settles O2: as for ADD, and each bit of the result is the and of the operands' bits. -/
theorem andIsBitwiseAndSetsZero : Obligations.AndIsBitwiseAndSetsZero := by
  refine ⟨fun rd rn rm => ?_, fun b => decodeByte_of_match_and, fun rd rn rm s => ?_⟩
  · have hasm := assembleProgram_registers [rd, rn, rm] (validMnemonics_plain "and".toList (by decide))
      (assembleLine_and rfl (readRegisters_regTokens [rd, rn, rm]))
    simpa [instructionText, encodeByte, packFields] using hasm
  · obtain ⟨t, hexec, hread, hz, hpc⟩ := finishAlu_result rd (aluAnd (s.readReg rn) (s.readReg rm)) s
    rw [aluAnd_toNat] at hz
    exact ⟨t, hexec, fun k _ => by rw [hread, aluAnd, BitVec.getLsbD_and], hz, hpc⟩

/-- Settles O3: as for ADD with two operands and the third field zero; the decoder does not read bits 1-0 (D15). -/
theorem notComplementsAndSetsZero : Obligations.NotComplementsAndSetsZero := by
  refine ⟨fun rd rn => ?_, fun b => decodeByte_of_match_not, fun rd rn s => ?_⟩
  · have hasm := assembleProgram_registers [rd, rn] (validMnemonics_plain "not".toList (by decide))
      (assembleLine_not rfl (readRegisters_regTokens [rd, rn]))
    simpa [instructionText, encodeByte, packFields] using hasm
  · obtain ⟨t, hexec, hread, hz, hpc⟩ := finishAlu_result rd (aluNot (s.readReg rn)) s
    rw [aluNot_toNat] at hz
    exact ⟨t, hexec, by rw [hread, aluNot_toNat], hz, hpc⟩

end Sys2Proof.Machine
end

section
/-! PROOFS. The branch: what BNZ does, and where the assembler lets it go (42_branch.md R140, R143). -/

namespace Sys2Proof

/-! ### The byte of a branch -/

theorem decodeByte_of_match_bnz {b : Byte} (h : b &&& 0xC0#8 = 0xC0#8) : decodeByte b = .bnz (b.toNat % 64) := by
  have hop : opcodeField b = 0b11#2 := by rw [← Machine.opcodeField_and_mask, h]; decide
  simp [decodeByte, hop, Machine.targetField_toNat]

/-- A target that fits in 6 bits is read back from the byte (30_encoding.md R73, R77). -/
theorem decodeByte_encodeByte_bnz {target : Nat} (h : target < 64) :
    decodeByte (encodeByte (.bnz target)) = .bnz target := by
  obtain ⟨hop, htarget⟩ := fields_branchByte (BitVec.ofNat 6 target)
  simp [encodeByte, decodeByte, hop, htarget, Nat.mod_eq_of_lt h]

theorem opcodeField_encodeByte (i : Instr) : opcodeField (encodeByte i) = i.opcode := by
  cases i with
  | add rd rn rm => exact Laws.EncodedOpcode.add rd rn rm
  | and rd rn rm => exact Laws.EncodedOpcode.and rd rn rm
  | not rd rn => exact Laws.EncodedOpcode.not rd rn
  | bnz target => exact Laws.EncodedOpcode.bnz target

/-- No other instruction's byte decodes to a branch, because the encoder keeps the opcode. -/
theorem eq_bnz_of_decodeByte_encodeByte {i : Instr} {target : Nat} (h : decodeByte (encodeByte i) = .bnz target) :
    ∃ a : Nat, i = .bnz a := by
  rw [← Instr.opcode_eq_bnz_iff, ← opcodeField_encodeByte, ← decodeByte_opcode, h, Instr.opcode]

theorem Instr.wellFormedIn_bnz_iff {n target : Nat} :
    (Instr.bnz target).wellFormedIn n = true ↔ target < 64 ∧ target < n := by
  simp [Instr.wellFormedIn]

namespace Machine

/-! ### What the assembler makes of a branch -/

section
variable {labels : LabelTable} {n : Nat}

theorem branchTo_of_lookup {name : Text} {a : Nat} (h : labels.lookup name = some a) :
    branchTo labels n name = if a < 64 ∧ a < n then .ok (.bnz a) else .error .branchTargetOutOfRange := by
  simp [branchTo, h, Instr.wellFormedIn_bnz_iff]

theorem branchTo_wellFormedIn {name : Text} {i : Instr} (h : branchTo labels n name = .ok i) :
    i.wellFormedIn n = true := by
  cases hl : labels.lookup name with
  | none => simp [branchTo, hl] at h
  | some a =>
    rw [branchTo_of_lookup hl] at h
    split at h
    · next hrange => cases h; exact Instr.wellFormedIn_bnz_iff.mpr hrange
    · cases h

theorem assembleLine_bnz {line : SourceLine} {name : Text} (hm : line.mnemonic = "bnz".toList)
    (ho : line.operands = [name]) (hname : isLabelName name = true) :
    assembleLine labels n line = branchTo labels n name := by
  simp [assembleLine, hm, ho, hname]

/-- Only the bnz mnemonic's arm answers a branch, and it answers what branchTo does (30_encoding.md R81). -/
theorem branchTo_of_assembleLine_eq_bnz {line : SourceLine} {target : Nat}
    (h : assembleLine labels n line = .ok (.bnz target)) :
    ∃ name : Text, branchTo labels n name = .ok (.bnz target) := by
  unfold assembleLine at h
  split at h
  · split at h <;> cases h
  split at h
  · split at h <;> cases h
  split at h
  · split at h <;> cases h
  split at h
  · split at h
    · next name _ =>
      split at h
      · exact ⟨name, h⟩
      · cases h
    · cases h
  · split at h <;> cases h

end

/-- Register operands need no bound, so the assembler's one range check covers every instruction (42_branch.md R143). -/
theorem assembleLine_wellFormedIn {labels : LabelTable} {n : Nat} {line : SourceLine} {i : Instr}
    (h : assembleLine labels n line = .ok i) : i.wellFormedIn n = true := by
  cases i with
  | add rd rn rm => rfl
  | and rd rn rm => rfl
  | not rd rn => rfl
  | bnz target =>
    obtain ⟨name, hbranch⟩ := branchTo_of_assembleLine_eq_bnz h
    exact branchTo_wellFormedIn hbranch

theorem assembleLines_wellFormedIn {lines : List SourceLine} {instrs : List Instr}
    (h : assembleLines lines = .ok instrs) : ∀ i ∈ instrs, i.wellFormedIn instrs.length = true := by
  unfold assembleLines at h
  dsimp only at h
  split at h
  · obtain ⟨hlen, hmem⟩ := collect_ok _ _ _ h
    intro i hi
    obtain ⟨line, _, hline⟩ := hmem i hi
    rw [hlen]
    exact assembleLine_wellFormedIn hline
  · cases h

/-- A program that assembles is the bytes of instructions that are well formed in it. -/
theorem assembleProgram_eq_ok {source : Text} {program : List Byte} (h : assembleProgram source = .ok program) :
    ∃ instrs : List Instr, program = instrs.map encodeByte ∧ ∀ i ∈ instrs, i.wellFormedIn instrs.length = true := by
  unfold assembleProgram assemble at h
  split at h
  · cases h
  · next lines _ =>
    cases hlines : assembleLines lines with
    | error e => rw [hlines] at h; cases h
    | ok instrs =>
      rw [hlines] at h
      cases h
      exact ⟨instrs, rfl, assembleLines_wellFormedIn hlines⟩

/-- Settles O37: the range check rejects the label, and a BNZ byte of the program is the byte of a checked branch. -/
theorem assembledBranchesStayInProgram : Obligations.AssembledBranchesStayInProgram := by
  refine ⟨fun labels n name a hlookup hout => ?_, fun source program hasm byte hbyte target hdec => ?_⟩
  · rw [branchTo_of_lookup hlookup]
    exact if_neg (by omega)
  · obtain ⟨instrs, rfl, hwf⟩ := assembleProgram_eq_ok hasm
    obtain ⟨i, hi, rfl⟩ := List.mem_map.mp hbyte
    obtain ⟨a, rfl⟩ := eq_bnz_of_decodeByte_encodeByte hdec
    obtain ⟨h64, hlen⟩ := Instr.wellFormedIn_bnz_iff.mp (hwf _ hi)
    cases hdec.symm.trans (decodeByte_encodeByte_bnz h64)
    exact ⟨by rwa [List.length_map], h64⟩

/-! ### What BNZ does -/

/-- An instruction leaves N and the status, so a pc at or beyond N halts the machine at the next fetch (R101). -/
theorem step_after_exec_of_ge {i : Instr} {s t : State} (hrun : s.status = .running) (h : exec i s = .next t)
    (hpc : s.imemLen ≤ t.pc) : step t = .next (t.halt .haltedNormal) :=
  step_of_ge ((exec_keeps_cycles_status h).2.trans hrun) ((exec_sameParameters h).imemLen.le.trans hpc)

/-- Settles O4: a label in range passes the range check, the mask keeps the opcode, and the two branches of BNZ are the jump and the advance. -/
theorem bnzBranchesWhenZeroFlagClear : Obligations.BnzBranchesWhenZeroFlagClear := by
  refine ⟨fun labels n label name a hname hlookup h64 hn => ?_, fun b => decodeByte_of_match_bnz,
    fun target s hz => exec_bnz_taken hz target, fun target s hz => exec_bnz_not_taken hz target,
    fun target s t => step_after_exec_of_ge⟩
  rw [assembleLine_bnz rfl rfl hname, branchTo_of_lookup hlookup, if_pos ⟨h64, hn⟩]

end Machine
end Sys2Proof
end

section
/-! PROOFS. Exceptions: no instruction faults (60_exceptions.md R150). -/

namespace Sys2Proof.Machine

/-- Settles O8: `decode` rejects only the empty list, the two shapes of an instruction both answer a next state, and so do the two arms of the fetch. -/
theorem noInstructionFaults : Obligations.NoInstructionFaults :=
  ⟨fun byte => ⟨decodeByte byte, rfl⟩, exec_completes, fun _ => step_completes, fun _ => State.ifetch_of_lt⟩

end Sys2Proof.Machine
end

section
/-! PROOFS. Reset: the state every run starts from (70_reset_and_hazards.md R170 to R174). -/

namespace Sys2Proof.Machine

theorem State.start_readReg (s : State) (r : Reg) : s.start.readReg r = Config.resetRegister := by
  rw [State.readReg_eq_get, State.start_eq_startWith, State.startWith_x, RegFile.get_all]

theorem State.start_sameParameters (s : State) : SameParameters s s.start := ⟨rfl, rfl, rfl⟩

/-- With Z at its reset value a first BNZ finds the last ALU result not zero (R172, 42_branch.md R140). -/
theorem exec_bnz_start (target : Nat) (s : State) : exec (.bnz target) s.start = .next (s.start.jump target) :=
  exec_bnz_taken (s.startWith_z _ Config.resetZ) target

/-- Settles O19: every register reads the reset value, BNZ reads the reset Z, and only the Machine State is written. -/
theorem resetLeavesSpecValues : Obligations.ResetLeavesSpecValues := by
  refine ⟨State.start_readReg, fun s => ⟨rfl, rfl, rfl⟩, fun s target => exec_bnz_start target s, fun s => ?_, rfl⟩
  obtain ⟨himem, hlen, hbudget⟩ := s.start_sameParameters
  exact ⟨himem, hlen, hbudget⟩

end Sys2Proof.Machine
end

section
/-! PROOFS. The frame of an instruction (10_state.md sections 1 and 2). -/

namespace Sys2Proof.Machine

/-- Settles O5: an ALU instruction writes its destination, Z and pc, and a branch writes pc alone. -/
theorem instructionsChangeOnlyTheirTargets : Obligations.InstructionsChangeOnlyTheirTargets := by
  intro i s
  obtain ⟨rd, v, hd, halu⟩ | ⟨target, _, hbnz⟩ := exec_shape i s
  · refine ⟨_, halu, fun r hr => RegFile.get_set_other _ v fun heq => hr (heq ▸ hd), fun hnone => ?_,
      rfl, rfl, rfl, rfl, rfl, fun _ => rfl⟩
    rw [hd] at hnone
    cases hnone
  · exact ⟨_, hbnz, fun _ _ => rfl, fun _ => rfl, rfl, rfl, rfl, rfl, rfl, fun _ => rfl⟩

end Sys2Proof.Machine
end

section
/-! PROOFS. The invariant of a run (10_state.md sections 3 and 4). -/

namespace Sys2Proof.Machine

theorem decodeByte_eq_bnz_lt {b : Byte} {target : Nat} (h : decodeByte b = .bnz target) : target < 64 := by
  have hwf := decodeByte_wellFormed b
  rw [h] at hwf
  exact of_decide_eq_true hwf

/-- An executed instruction leaves pc at most at N by advancing, or at most at 63 by branching (10_state.md R26). -/
theorem step_pc_le {s t : State} (hpc : s.pc < s.imemLen) (h : step s = .next t) : t.pc ≤ max s.imemLen 63 := by
  obtain ⟨_, ⟨hge, _⟩ | ⟨_, u, hexec, rfl⟩⟩ := step_cases h
  · omega
  rw [State.retire_pc]
  obtain ⟨_, _, _, halu⟩ | ⟨target, hdec, hbnz⟩ := exec_shape (decodeByte (s.imem.read s.pc)) s
  · cases hexec.symm.trans halu
    show s.pc + 1 ≤ _
    omega
  · have htarget := decodeByte_eq_bnz_lt hdec
    cases hexec.symm.trans hbnz
    show (if s.z then s.pc + 1 else target) ≤ _
    split <;> omega

theorem halt_haltedNormal_inv {s : State} (hs : Inv s) (hrun : s.status = .running) (hpc : s.imemLen ≤ s.pc) :
    Inv (s.halt .haltedNormal) where
  storeCanonical := hs.storeCanonical
  storeInProgram := hs.storeInProgram
  pcBounded := hs.pcBounded
  withinBudget := nofun
  normalHalt _ := ⟨hpc, hs.withinBudget hrun⟩
  cycleLimitHalt := nofun

/-- The count and the check of one step give the budget's bounds: within B when the machine runs on, B + 1 when it halts. -/
theorem executing_step_inv {s t : State} (hs : Inv s) (hrun : s.status = .running) (hpc : s.pc < s.imemLen)
    (h : step s = .next t) : Inv t := by
  obtain ⟨himem, hlen, hbudget⟩ := step_sameParameters h
  obtain ⟨hcycles, hstatus⟩ := step_counts hpc h
  have hwithin := hs.withinBudget hrun
  have hcanonical : t.imem.wf := himem ▸ hs.storeCanonical
  have hprogram : ∀ c ∈ t.imem, c.1 < t.imemLen := himem ▸ hlen ▸ hs.storeInProgram
  have hpc' : t.pc ≤ max t.imemLen 63 := hlen ▸ step_pc_le hpc h
  split at hstatus
  · exact ⟨hcanonical, hprogram, hpc', fun hst => (nomatch hstatus.symm.trans hst),
      fun hst => (nomatch hstatus.symm.trans hst), fun _ => by omega⟩
  · exact ⟨hcanonical, hprogram, hpc', fun _ => by omega, fun hst => (nomatch hstatus.symm.trans hst),
      fun hst => (nomatch hstatus.symm.trans hst)⟩

/-- Settles O23: the halting fetch meets its own condition, and an executed instruction keeps the bounds. -/
theorem everyStepKeepsInvariant : Obligations.EveryStepKeepsInvariant := by
  intro s t hs hstep
  obtain ⟨hrun, ⟨hpc, rfl⟩ | ⟨hpc, _⟩⟩ := step_cases hstep
  · exact halt_haltedNormal_inv hs hrun hpc
  · exact executing_step_inv hs hrun hpc hstep

theorem State.boot_inv (program : List Byte) (budget : Nat) : Inv (State.boot program budget) where
  storeCanonical := Memory.ofBytes_wf program 0
  storeInProgram c hc := by
    have hlt := (Memory.ofBytes_mem hc).2
    rwa [Nat.zero_add] at hlt
  pcBounded := Nat.zero_le _
  withinBudget _ := Nat.zero_le _
  normalHalt := nofun
  cycleLimitHalt := nofun

/-- Settles O24: State.reset is the boot of no program with no budget, and a loaded store is canonical and inside N. -/
theorem invariantHoldsAtStart : Obligations.InvariantHoldsAtStart :=
  ⟨State.boot_inv [] Config.unconfiguredBudget, State.boot_inv⟩

end Sys2Proof.Machine
end

section
/-! PROOFS. Halts and the end of a run (40_execution_cycle.md R100, R106 to R108, R110, R111; 60_exceptions.md R163). -/

namespace Sys2Proof.Machine

/-! ### One step -/

/-- Settles O12: the count after the step exceeds the budget, and the check does not look at pc (R107). -/
theorem cycleLimitWinsOverProgramEnd : Obligations.CycleLimitWinsOverProgramEnd := by
  intro s hrun hpc hbudget
  obtain ⟨t, hstep⟩ := step_completes hrun
  obtain ⟨hcycles, hstatus⟩ := step_counts hpc hstep
  exact ⟨t, hstep, by rw [hstatus, if_pos (by omega)], hcycles⟩

theorem runToHalt_of_halted {s : State} (h : s.status ≠ .running) (k : Nat) : State.runToHalt k s = s := by
  cases k with
  | zero => rfl
  | succ k => rw [State.runToHalt, step_of_halted h]

theorem runToHalt_halt {reason : RunStatus} (h : reason ≠ .running) (s : State) (k : Nat) :
    State.runToHalt k (s.halt reason) = s.halt reason :=
  runToHalt_of_halted h k

theorem runToHalt_succ {s t : State} (h : step s = .next t) (k : Nat) :
    State.runToHalt (k + 1) s = State.runToHalt k t := by
  rw [State.runToHalt, h]

/-- Settles O13: step's cases for a running and for a halted machine. -/
theorem machineStepsExactlyWhileRunning : Obligations.MachineStepsExactlyWhileRunning :=
  fun _ => ⟨⟨fun ⟨_, hstep⟩ => (step_cases hstep).1, step_completes⟩,
    fun hhalt => ⟨step_of_halted hhalt, runToHalt_of_halted hhalt⟩⟩

/-- Settles O20: a reset sets the status, and with no program the first fetch finds pc at N. -/
theorem emptyProgramHaltsAtFirstStep : Obligations.EmptyProgramHaltsAtFirstStep :=
  ⟨fun _ => rfl, fun _ _ => rfl, fun _ hlen => ⟨rfl, step_of_ge rfl hlen.le⟩⟩

/-- Settles O21: load, configure and start write every field with values of their own arguments. -/
theorem newRunForgetsEarlierRun : Obligations.NewRunForgetsEarlierRun := fun _ _ _ _ => rfl

/-! ### Every run ends -/

/-- Packages an induction over a run: what every step keeps holds of its last state. -/
theorem runToHalt_keeps {P : State → Prop} (hstep : ∀ s t, P s → step s = .next t → P t) (k : Nat) {s : State}
    (hs : P s) : P (State.runToHalt k s) := by
  induction k generalizing s with
  | zero => exact hs
  | succ k ih =>
    by_cases hrun : s.status = .running
    · obtain ⟨t, ht⟩ := step_completes hrun
      rw [runToHalt_succ ht]
      exact ih (hstep s t hs ht)
    · rwa [runToHalt_of_halted hrun]

/-- Each step but the last counts an instruction, so the steps left and the count together reach B + 2 (R111). -/
theorem runToHalt_halts (k : Nat) {s : State} (hs : s.WithinBudget) (hk : s.budget + 2 ≤ s.cycles + k) :
    (State.runToHalt k s).status ≠ .running := by
  induction k generalizing s with
  | zero =>
    have hle := hs.always
    omega
  | succ k ih =>
    by_cases hrun : s.status = .running
    · obtain ⟨t, hstep⟩ := step_completes hrun
      rw [runToHalt_succ hstep]
      obtain ⟨_, ⟨_, rfl⟩ | ⟨hpc, _⟩⟩ := step_cases hstep
      · rw [runToHalt_halt (by decide)]
        exact nofun
      · obtain ⟨hcycles, _⟩ := step_counts hpc hstep
        have hbudget := (step_sameParameters hstep).budget
        exact ih (step_keeps_withinBudget hs hstep) (by omega)
    · rwa [runToHalt_of_halted hrun]

theorem runProgram_halts (program : List Byte) (budget : Nat) :
    (State.runProgram program budget).status ≠ .running :=
  runToHalt_halts _ (State.boot_withinBudget program budget) (Nat.le_add_left _ _)

theorem runProgram_budget (program : List Byte) (budget : Nat) : (State.runProgram program budget).budget = budget :=
  (runToHalt_keeps (fun _ _ hs hstep => hs.trans (step_sameParameters hstep)) _
    (SameParameters.refl (State.boot program budget))).budget

theorem runProgram_withinBudget (program : List Byte) (budget : Nat) :
    (State.runProgram program budget).WithinBudget :=
  runToHalt_keeps (fun _ _ => step_keeps_withinBudget) _ (State.boot_withinBudget program budget)

/-- Settles O26: the measure B + 2 - cycles bounds the steps left, and the budget bound is kept to the end of the run. -/
theorem everyRunEnds : Obligations.EveryRunEnds := by
  refine ⟨fun s hrun hle => runToHalt_halts _ ⟨fun _ => hle, by omega⟩ (by omega),
    fun program budget => ⟨runProgram_halts program budget, ?_⟩⟩
  have hle := (runProgram_withinBudget program budget).always
  rwa [runProgram_budget] at hle

/-! ### The outcome of a run -/

theorem freeStep_of_exec {s u : State} (hpc : s.pc < s.imemLen)
    (h : exec (decodeByte (s.imem.read s.pc)) s = .next u) : s.freeStep = u.countCycle := by
  rw [State.freeStep, State.ifetch_of_lt hpc]
  simp only [h]

/-- An executed instruction is the free step, then the budget check (R105, R106). -/
theorem step_eq_freeStep {s : State} (hrun : s.status = .running) (hpc : s.pc < s.imemLen) :
    step s = .next s.freeStep.checkBudget := by
  obtain ⟨u, hexec⟩ := exec_completes (decodeByte (s.imem.read s.pc)) s
  rw [step_of_lt hrun hpc, freeStep_of_exec hpc hexec, hexec, retireOutcome, State.retire]

theorem State.checkBudget_of_le {s : State} (h : s.cycles ≤ s.budget) : s.checkBudget = s :=
  if_neg (Nat.not_lt.mpr h)

theorem State.checkBudget_of_lt {s : State} (h : s.budget < s.cycles) : s.checkBudget = s.halt .haltedCycleLimit :=
  if_pos h

theorem freeStep_counts {s : State} (hpc : s.pc < s.imemLen) :
    s.freeStep.cycles = s.cycles + 1 ∧ s.freeStep.status = s.status ∧ SameParameters s s.freeStep := by
  obtain ⟨u, hexec⟩ := exec_completes (decodeByte (s.imem.read s.pc)) s
  obtain ⟨hcycles, hstatus⟩ := exec_keeps_cycles_status hexec
  rw [freeStep_of_exec hpc hexec, State.countCycle_cycles, hcycles]
  obtain ⟨himem, hlen, hbudget⟩ := exec_sameParameters hexec
  exact ⟨rfl, hstatus, himem, hlen, hbudget⟩

/-- Below N, the run without a budget counts its instructions and changes neither the status nor a parameter. -/
theorem freeRun_counts {s : State} : ∀ {k : Nat}, (∀ j < k, (s.freeRun j).pc < s.imemLen) →
    (s.freeRun k).cycles = s.cycles + k ∧ (s.freeRun k).status = s.status ∧ SameParameters s (s.freeRun k)
  | 0, _ => ⟨rfl, rfl, .refl s⟩
  | k + 1, hpc => by
    obtain ⟨hcycles, hstatus, hparam⟩ := freeRun_counts fun j hj => hpc j (Nat.lt_succ_of_lt hj)
    have hlt : (s.freeRun k).pc < (s.freeRun k).imemLen := hparam.imemLen ▸ hpc k (Nat.lt_succ_self k)
    obtain ⟨hcycles', hstatus', hparam'⟩ := freeStep_counts hlt
    rw [State.freeRun, hcycles', hcycles, hstatus', hstatus]
    exact ⟨rfl, rfl, hparam.trans hparam'⟩

/-- The (k + 1)-th step of a run that has executed k instructions below N, each within the budget. -/
theorem step_freeRun {s : State} (hrun : s.status = .running) {k : Nat}
    (hpc : ∀ j < k + 1, (s.freeRun j).pc < s.imemLen) :
    step (s.freeRun k) = .next (s.freeRun (k + 1)).checkBudget := by
  obtain ⟨_, hstatus, hparam⟩ := freeRun_counts fun j hj => hpc j (Nat.lt_succ_of_lt hj)
  exact step_eq_freeStep (hstatus.trans hrun) (hparam.imemLen ▸ hpc k (Nat.lt_succ_self k))

/-- Up to the budget, a run is the run without one. -/
theorem runToHalt_eq_freeRun {s : State} (hrun : s.status = .running) (m : Nat) {k : Nat}
    (hpc : ∀ j < k, (s.freeRun j).pc < s.imemLen) (hle : s.cycles + k ≤ s.budget) :
    State.runToHalt (k + m) s = State.runToHalt m (s.freeRun k) := by
  induction k generalizing m with
  | zero => rw [Nat.zero_add, State.freeRun]
  | succ k ih =>
    obtain ⟨hcycles, _, hparam⟩ := freeRun_counts hpc
    have hwithin : (s.freeRun (k + 1)).cycles ≤ (s.freeRun (k + 1)).budget := by rwa [hcycles, hparam.budget]
    have hstep := step_freeRun hrun hpc
    rw [State.checkBudget_of_le hwithin] at hstep
    rw [Nat.add_right_comm, Nat.add_assoc, ih (m + 1) (fun j hj => hpc j (Nat.lt_succ_of_lt hj)) (by omega),
      runToHalt_succ hstep]

/-- The program ends within the budget: the fetch after its last instruction halts. -/
theorem runToHalt_of_endsAfter {s : State} (hrun : s.status = .running) {k : Nat} (hle : s.cycles + k ≤ s.budget)
    (hend : s.EndsAfter k) (m : Nat) :
    State.runToHalt (k + (m + 1)) s = (s.freeRun k).halt .haltedNormal := by
  obtain ⟨hpc, hbelow⟩ := hend
  obtain ⟨_, hstatus, hparam⟩ := freeRun_counts hbelow
  rw [runToHalt_eq_freeRun hrun _ hbelow hle,
    runToHalt_succ (step_of_ge (hstatus.trans hrun) (hparam.imemLen.le.trans hpc)),
    runToHalt_halt (by decide)]

/-- The program has not ended when the budget is used up: its next instruction is executed and exceeds it. -/
theorem runToHalt_of_budget_used_up {s : State} (hrun : s.status = .running) {k : Nat}
    (hle : s.cycles + k = s.budget) (hbelow : ∀ j ≤ k, (s.freeRun j).pc < s.imemLen) (m : Nat) :
    State.runToHalt (k + (m + 1)) s = (s.freeRun (k + 1)).halt .haltedCycleLimit := by
  have hbelow : ∀ j < k + 1, (s.freeRun j).pc < s.imemLen := fun j hj => hbelow j (Nat.le_of_lt_succ hj)
  obtain ⟨hcycles, _, hparam⟩ := freeRun_counts hbelow
  have hover : (s.freeRun (k + 1)).budget < (s.freeRun (k + 1)).cycles := by rw [hcycles, hparam.budget]; omega
  rw [runToHalt_eq_freeRun hrun _ (fun j hj => hbelow j (Nat.lt_succ_of_lt hj)) hle.le,
    runToHalt_succ (step_freeRun hrun hbelow), State.checkBudget_of_lt hover, runToHalt_halt (by decide)]

theorem State.halt_eq_with_cycles {s : State} {k : Nat} (h : s.cycles = k) (reason : RunStatus) :
    s.halt reason = { s with cycles := k, status := reason } := by
  rw [← h, State.halt]

/-- Settles O27: the run follows the run without a budget up to the halting fetch, or up to the instruction that exceeds B. -/
theorem runOutcomeByInstructionCount : Obligations.RunOutcomeByInstructionCount := by
  intro program budget
  refine ⟨fun k hle hend => ?_, fun hbelow => ?_⟩
  · have hcycles : ((State.boot program budget).freeRun k).cycles = k :=
      (freeRun_counts hend.2).1.trans (Nat.zero_add k)
    rw [State.runProgram, show budget + 2 = k + (budget + 1 - k + 1) by omega,
      runToHalt_of_endsAfter rfl ((Nat.zero_add k).le.trans hle) hend, State.halt_eq_with_cycles hcycles]
  · have hcycles : ((State.boot program budget).freeRun (budget + 1)).cycles = budget + 1 :=
      (freeRun_counts fun j hj => hbelow j (Nat.le_of_lt_succ hj)).1.trans (Nat.zero_add _)
    rw [State.runProgram, runToHalt_of_budget_used_up rfl (Nat.zero_add budget) hbelow,
      State.halt_eq_with_cycles hcycles]

/-! ### The trace -/

theorem readout_of_halted {s : State} (h : s.status ≠ .running) : s.readout = some s.observe := by
  rw [State.readout]
  split
  · contradiction
  · rfl
  · rfl

theorem traceRun_of_halted {s : State} (h : s.status ≠ .running) (k : Nat) : State.traceRun k s = [] := by
  cases k with
  | zero => rfl
  | succ k => rw [State.traceRun, step_of_halted h]

theorem traceRun_succ {s t : State} (h : step s = .next t) (k : Nat) :
    State.traceRun (k + 1) s = t.observe :: State.traceRun k t := by
  rw [State.traceRun, h]

/-- The trace of a run that reaches a halt ends in the halted state. -/
theorem traceRun_getLast? (k : Nat) {s : State} (hrun : s.status = .running)
    (hhalt : (State.runToHalt k s).status ≠ .running) :
    (State.traceRun k s).getLast? = some (State.runToHalt k s).observe := by
  induction k generalizing s with
  | zero => exact absurd hrun hhalt
  | succ k ih =>
    obtain ⟨t, hstep⟩ := step_completes hrun
    rw [runToHalt_succ hstep] at hhalt ⊢
    rw [traceRun_succ hstep, List.getLast?_cons]
    by_cases ht : t.status = .running
    · rw [ih ht hhalt, Option.getD_some]
    · rw [traceRun_of_halted ht, runToHalt_of_halted ht, List.getLast?_nil, Option.getD_none]

theorem hostRun_map_final (debug : Bool) (file : Text) (budget : Nat) :
    (State.hostRun debug file budget).map HostResult.final =
      (parseObject file).map fun program => (State.runProgram program budget).readout := by
  unfold State.hostRun
  cases parseObject file <;> rfl

/-- Settles O34: the final readout is the run's with either flag, and the trace of a run, which halts, ends in it. -/
theorem traceOnlyObserves : Obligations.TraceOnlyObserves := by
  refine ⟨fun file budget => ?_, fun program budget => ?_⟩
  · rw [hostRun_map_final, hostRun_map_final]
  · have hhalt := runProgram_halts program budget
    rw [readout_of_halted hhalt]
    exact traceRun_getLast? _ rfl hhalt

end Sys2Proof.Machine
end

section
/-! PROOFS. Encoding round trips and the decoder's signals (30_encoding.md sections 1 and 3). -/

namespace Sys2Proof

/-! ### Decoding by opcode -/

section
variable {b : Byte}

theorem decodeByte_of_opcode_add (h : opcodeField b = 0b00#2) :
    decodeByte b = .add (Reg.ofCode (rdField b)) (Reg.ofCode (rnField b)) (Reg.ofCode (rmField b)) := by
  simp [decodeByte, h]

theorem decodeByte_of_opcode_and (h : opcodeField b = 0b01#2) :
    decodeByte b = .and (Reg.ofCode (rdField b)) (Reg.ofCode (rnField b)) (Reg.ofCode (rmField b)) := by
  simp [decodeByte, h]

theorem decodeByte_of_opcode_not (h : opcodeField b = 0b10#2) :
    decodeByte b = .not (Reg.ofCode (rdField b)) (Reg.ofCode (rnField b)) := by
  simp [decodeByte, h]

theorem decodeByte_of_opcode_bnz (h : opcodeField b = 0b11#2) : decodeByte b = .bnz (targetField b).toNat := by
  simp [decodeByte, h]

end

/-! ### Decode of encode -/

/-- The decoder reads back the fields the encoder packed (30_encoding.md R71 to R73). -/
theorem decodeByte_encodeByte {i : Instr} (h : i.wellFormed = true) : decodeByte (encodeByte i) = i := by
  have hop := opcodeField_encodeByte i
  cases i with
  | add rd rn rm =>
    obtain ⟨_, hrd, hrn, hrm⟩ := fields_packFields 0b00#2 rd.code rn.code rm.code
    rw [decodeByte_of_opcode_add hop, encodeByte, hrd, hrn, hrm]
    simp only [Reg.ofCode_code]
  | and rd rn rm =>
    obtain ⟨_, hrd, hrn, hrm⟩ := fields_packFields 0b01#2 rd.code rn.code rm.code
    rw [decodeByte_of_opcode_and hop, encodeByte, hrd, hrn, hrm]
    simp only [Reg.ofCode_code]
  | not rd rn =>
    obtain ⟨_, hrd, hrn, _⟩ := fields_packFields 0b10#2 rd.code rn.code 0b00#2
    rw [decodeByte_of_opcode_not hop, encodeByte, hrd, hrn]
    simp only [Reg.ofCode_code]
  | bnz target => exact decodeByte_encodeByte_bnz (of_decide_eq_true h)

/-- Settles O17: an instruction is one byte, and the decoder reads its fields back. -/
theorem decodeOfEncodeIsInstruction : Obligations.DecodeOfEncodeIsInstruction := by
  intro i rest hwf
  refine ⟨rfl, ?_⟩
  rw [encode, List.singleton_append, decode, decodeByte_encodeByte hwf]

/-- Settles O15: the decoder evaluated on the five words of 95_test_vectors.md. -/
theorem writtenOutWordsDecode : Obligations.WrittenOutWordsDecode := by
  unfold Obligations.WrittenOutWordsDecode
  decide

/-! ### Encode of decode -/

/-- A byte is its four fields. -/
theorem packFields_fields (b : Byte) : packFields (opcodeField b) (rdField b) (rnField b) (rmField b) = b := by
  simp only [packFields, opcodeField, rdField, rnField, rmField,
    BitVec.extractLsb'_append_extractLsb'_eq_extractLsb']
  exact BitVec.extractLsb'_eq_self

/-- A branch's byte is its opcode and its target. -/
theorem append_targetField (b : Byte) : opcodeField b ++ targetField b = b := by
  rw [opcodeField, targetField, BitVec.extractLsb'_append_extractLsb'_eq_extractLsb' (Nat.zero_add 6).symm]
  exact BitVec.extractLsb'_eq_self

theorem packFields_and (a b c d a' b' c' d' : BitVec 2) :
    packFields a b c d &&& packFields a' b' c' d' = packFields (a &&& a') (b &&& b') (c &&& c') (d &&& d') := by
  show (a ++ b ++ c ++ d : BitVec (2 + 2 + 2 + 2)) &&& (a' ++ b' ++ c' ++ d') = packFields _ _ _ _
  rw [packFields, BitVec.and_append, BitVec.and_append, BitVec.and_append]

/-- The mask 0xFC clears the third field. -/
theorem packFields_and_operand_mask (a b c d : BitVec 2) :
    packFields a b c d &&& 0xFC#8 = packFields a b c 0b00#2 := by
  have hmask : 0xFC#8 = packFields (BitVec.allOnes 2) (BitVec.allOnes 2) (BitVec.allOnes 2) 0b00#2 := by decide
  simp only [hmask, packFields_and, BitVec.and_allOnes, BitVec.and_zero]

/-- The mask 0xC0 finds NOT's bytes (41_alu.md R125). -/
theorem match_not_iff (b : Byte) : b &&& 0xC0#8 = 0x80#8 ↔ opcodeField b = 0b10#2 := by
  constructor <;> intro h
  · rw [← Machine.opcodeField_and_mask, h]
    decide
  · have hmask : 0xC0#8 = packFields (BitVec.allOnes 2) 0b00#2 0b00#2 0b00#2 := by decide
    rw [← packFields_fields b, h, hmask, packFields_and]
    simp only [BitVec.and_allOnes, BitVec.and_zero]
    decide

/-- Settles O18: each family's byte is put together again from the fields the decoder read; NOT's third field is written as zero. -/
theorem encodeOfDecodeIsByte : Obligations.EncodeOfDecodeIsByte := by
  intro b
  simp only [match_not_iff]
  have hfields := packFields_fields b
  obtain ⟨hop, hdec⟩ | ⟨hop, hdec⟩ | ⟨hop, hdec⟩ | ⟨hop, hdec⟩ := decodeByte_cases b <;>
    rw [hdec, encodeByte, hop]
  · rw [if_neg (by decide), Reg.code_ofCode, Reg.code_ofCode, Reg.code_ofCode, ← hop, hfields]
  · rw [if_neg (by decide), Reg.code_ofCode, Reg.code_ofCode, Reg.code_ofCode, ← hop, hfields]
  · rw [if_pos rfl, Reg.code_ofCode, Reg.code_ofCode, ← packFields_and_operand_mask _ _ _ (rmField b), ← hop, hfields]
  · rw [if_neg (by decide), BitVec.ofNat_toNat, BitVec.setWidth_eq, ← hop, append_targetField]

end Sys2Proof

namespace Sys2Proof.Machine

/-! ### The decoder's signals -/

section
variable (b : Byte)

theorem decoder_isAdd_iff : (decoder b).isAdd = true ↔ ∃ rd rn rm : Reg, decodeByte b = .add rd rn rm := by
  rw [← Instr.opcode_eq_add_iff, decodeByte_opcode, decoder, beq_iff_eq]

theorem decoder_isAnd_iff : (decoder b).isAnd = true ↔ ∃ rd rn rm : Reg, decodeByte b = .and rd rn rm := by
  rw [← Instr.opcode_eq_and_iff, decodeByte_opcode, decoder, beq_iff_eq]

theorem decoder_isNot_iff : (decoder b).isNot = true ↔ ∃ rd rn : Reg, decodeByte b = .not rd rn := by
  rw [← Instr.opcode_eq_not_iff, decodeByte_opcode, decoder, beq_iff_eq]

theorem decoder_isBnz_iff : (decoder b).isBnz = true ↔ ∃ target : Nat, decodeByte b = .bnz target := by
  rw [← Instr.opcode_eq_bnz_iff, decodeByte_opcode, decoder, beq_iff_eq]

/-- Exactly one of the four selects is high, because the opcode has one of four values. -/
theorem decoder_selects_count :
    [(decoder b).isAdd, (decoder b).isAnd, (decoder b).isNot, (decoder b).isBnz].count true = 1 := by
  have hone : ∀ op : BitVec 2, [op == 0b00#2, op == 0b01#2, op == 0b10#2, op == 0b11#2].count true = 1 := by decide
  exact hone (opcodeField b)

end

section
variable {b : Byte} {rd rn rm : Reg}

theorem decoder_operands_of_add (h : decodeByte b = .add rd rn rm) :
    (decoder b).rd = rd.code ∧ (decoder b).rn = rn.code ∧ (decoder b).rm = rm.code := by
  have hop : opcodeField b = 0b00#2 := by rw [← decodeByte_opcode, h, Instr.opcode]
  cases h.symm.trans (decodeByte_of_opcode_add hop)
  simp only [Reg.code_ofCode]
  exact ⟨rfl, rfl, rfl⟩

theorem decoder_operands_of_and (h : decodeByte b = .and rd rn rm) :
    (decoder b).rd = rd.code ∧ (decoder b).rn = rn.code ∧ (decoder b).rm = rm.code := by
  have hop : opcodeField b = 0b01#2 := by rw [← decodeByte_opcode, h, Instr.opcode]
  cases h.symm.trans (decodeByte_of_opcode_and hop)
  simp only [Reg.code_ofCode]
  exact ⟨rfl, rfl, rfl⟩

theorem decoder_operands_of_not (h : decodeByte b = .not rd rn) :
    (decoder b).rd = rd.code ∧ (decoder b).rn = rn.code := by
  have hop : opcodeField b = 0b10#2 := by rw [← decodeByte_opcode, h, Instr.opcode]
  cases h.symm.trans (decodeByte_of_opcode_not hop)
  simp only [Reg.code_ofCode]
  exact ⟨rfl, rfl⟩

theorem decoder_target_of_bnz {target : Nat} (h : decodeByte b = .bnz target) :
    (decoder b).target.toNat = target := by
  have hop : opcodeField b = 0b11#2 := by rw [← decodeByte_opcode, h, Instr.opcode]
  cases h.symm.trans (decodeByte_of_opcode_bnz hop)
  rfl

end

/-- Settles O28: the signals are the fields and comparisons of the opcode, and the opcode names the instruction. -/
theorem decoderSignalsAgreeWithDecoding : Obligations.DecoderSignalsAgreeWithDecoding :=
  fun b => ⟨⟨rfl, rfl, rfl, rfl, rfl⟩, (decodeByte_opcode b).symm, ⟨rfl, rfl, rfl, rfl⟩,
    decoder_isAdd_iff b, decoder_isAnd_iff b, decoder_isNot_iff b, decoder_isBnz_iff b,
    fun _ _ _ h => h.elim decoder_operands_of_add decoder_operands_of_and,
    fun _ _ => decoder_operands_of_not, fun _ => decoder_target_of_bnz, decoder_selects_count b, rfl, rfl⟩

end Sys2Proof.Machine
end

section
/-! PROOFS. The clocked block: its ALU, its edge and its ports (00_scope.md section 5, 40_execution_cycle.md R112, 41_alu.md R120). -/

namespace Sys2Proof.Machine

/-! ### The ALU -/

/-- Settles O29: each function's exact value, and zero is read off y whatever y is. -/
theorem aluFunctionTable : Obligations.AluFunctionTable :=
  fun a b => ⟨aluAdd_toNat a b, aluAnd_toNat a b, aluNot_toNat a, fun op => zeroFlag_eq_toNat (aluY op a b)⟩

/-! ### The output ports -/

theorem RunStatus.code_injective : Function.Injective RunStatus.code := by
  intro st st' h
  cases st <;> cases st' <;> simp [RunStatus.code] at h ⊢

theorem RunStatus.code_ne_11 (st : RunStatus) : st.code ≠ 0b11#2 := by
  cases st <;> decide

/-- Settles O31: the ports are the registers, which hold the state, and the status codes differ. -/
theorem portsShowMachineState : Obligations.PortsShowMachineState := by
  intro pcW cntW s b hb
  have hport (st : RunStatus) : b.outputs.status = st.code ↔ s.status = st := by
    rw [← hb.status]
    exact RunStatus.code_injective.eq_iff
  exact ⟨hb.pc, hb.pc, hb.cycles, hb.x, hb.z, hport .running, hport .haltedNormal, hport .haltedCycleLimit,
    b.status.code_ne_11⟩

/-! ### The edge by its cases (40_execution_cycle.md R112) -/

section
variable {pcW cntW : Nat} {inp : BlockIn pcW cntW} {b : Block pcW cntW}

theorem Block.edge_of_rst (h : inp.rst = true) : b.edge inp = Block.reset pcW cntW :=
  if_pos h

theorem Block.edge_of_halted (h : inp.rst = false) (hb : b.status ≠ .running) : b.edge inp = b := by
  rw [Block.edge, h, if_neg Bool.false_ne_true]
  split
  · contradiction
  · rfl
  · rfl

theorem Block.edge_of_running (h : inp.rst = false) (hb : b.status = .running) :
    b.edge inp = if inp.imemLen ≤ b.pc then { b with status := .haltedNormal } else b.commit inp := by
  rw [Block.edge, h, if_neg Bool.false_ne_true]
  simp only [hb]

/-! ### What an edge commits -/

/-- The ALU's output y for the byte on the instruction port and the two registers it reads. -/
def Block.aluResult (inp : BlockIn pcW cntW) (b : Block pcW cntW) : Byte :=
  aluY (opcodeField inp.imemData) (readPort b.x (rnField inp.imemData)) (readPort b.x (rmField inp.imemData))

/-- Under any opcode but 11 both write enables are high and no branch is selected (30_encoding.md R75). -/
theorem decoder_of_opcode_ne_11 {instr : Byte} (hop : opcodeField instr ≠ 0b11#2) :
    (decoder instr).regWe = true ∧ (decoder instr).zWe = true ∧ (decoder instr).isBnz = false := by
  have hwe : ∀ op : BitVec 2, op ≠ 0b11#2 → (op == 0b00#2 || op == 0b01#2 || op == 0b10#2) = true := by decide
  exact ⟨hwe _ hop, hwe _ hop, beq_false_of_ne hop⟩

/-- Under opcode 11 both write enables are low. -/
theorem decoder_of_opcode_11 {instr : Byte} (hop : opcodeField instr = 0b11#2) :
    (decoder instr).regWe = false ∧ (decoder instr).zWe = false ∧ (decoder instr).isBnz = true := by
  rw [decoder, hop]
  exact ⟨rfl, rfl, rfl⟩

theorem Block.commit_of_alu (hop : opcodeField inp.imemData ≠ 0b11#2) :
    (b.commit inp).x = b.x.set (Reg.ofCode (rdField inp.imemData)) (b.aluResult inp) ∧
    (b.commit inp).z = zeroFlag (b.aluResult inp) ∧ (b.commit inp).pc = b.pc + 1#pcW := by
  obtain ⟨hreg, hz, hbnz⟩ := decoder_of_opcode_ne_11 hop
  simp only [Block.commit, hreg, hz, hbnz, writePort]
  exact ⟨rfl, rfl, rfl⟩

theorem Block.commit_of_bnz (hop : opcodeField inp.imemData = 0b11#2) :
    (b.commit inp).x = b.x ∧ (b.commit inp).z = b.z ∧
    (b.commit inp).pc = if b.z then b.pc + 1#pcW else (targetField inp.imemData).setWidth pcW := by
  obtain ⟨hreg, hz, hbnz⟩ := decoder_of_opcode_11 hop
  simp only [Block.commit, hreg, hz, hbnz, writePort]
  refine ⟨rfl, rfl, ?_⟩
  cases b.z <;> rfl

end

/-! ### The step's instruction, read off the byte -/

/-- The three ALU instructions are one: the opcode selects the function (41_alu.md R120). -/
theorem exec_decodeByte_of_alu {instr : Byte} (hop : opcodeField instr ≠ 0b11#2) (s : State) :
    exec (decodeByte instr) s =
      finishAlu (Reg.ofCode (rdField instr))
        (aluY (opcodeField instr) (readPort s.x (rnField instr)) (readPort s.x (rmField instr))) s := by
  obtain ⟨hop', hdec⟩ | ⟨hop', hdec⟩ | ⟨hop', hdec⟩ | ⟨hop', _⟩ := decodeByte_cases instr
  · rw [hdec, hop']
    rfl
  · rw [hdec, hop']
    rfl
  · rw [hdec, hop']
    rfl
  · exact absurd hop' hop

/-! ### Widths under which nothing wraps (92_eei_decisions.md D10, D11) -/

theorem toNat_add_one {w : Nat} {a : BitVec w} (h : a.toNat + 1 < 2 ^ w) : (a + 1#w).toNat = a.toNat + 1 := by
  have hone : (1#w).toNat = 1 := by rw [BitVec.toNat_ofNat, Nat.mod_eq_of_lt (by omega)]
  rw [BitVec.toNat_add_of_lt (by rwa [hone]), hone]

theorem toNat_setWidth_target {w : Nat} (h : 63 < 2 ^ w) (target : BitVec 6) :
    (target.setWidth w).toNat = target.toNat := by
  have hlt := target.isLt
  rw [BitVec.toNat_setWidth, Nat.mod_eq_of_lt (by omega)]

/-! ### The edge realises the step -/

section
variable {pcW cntW : Nat} {s : State} {inp : BlockIn pcW cntW} {b : Block pcW cntW}
variable (hw : WidthsSuffice pcW cntW s) (hb : b.Holds s) (hin : inp.DrivenBy s)
include hw hb

/-- The registers, Z and pc that an edge commits are those the instruction leaves. -/
theorem commit_eq_exec {u : State} (hpc : s.pc < s.imemLen) (hexec : exec (decodeByte inp.imemData) s = .next u) :
    (b.commit inp).x = u.x ∧ (b.commit inp).z = u.z ∧ (b.commit inp).pc.toNat = u.pc := by
  obtain ⟨hpcW, _⟩ := hw
  have hnext : (b.pc + 1#pcW).toNat = s.pc + 1 := by
    rw [toNat_add_one (by rw [hb.pc]; omega), hb.pc]
  by_cases hop : opcodeField inp.imemData = 0b11#2
  · obtain ⟨hx, hz, hpc'⟩ := Block.commit_of_bnz (b := b) hop
    rw [decodeByte_of_opcode_bnz hop, exec_bnz] at hexec
    cases hexec
    rw [hx, hz, hpc', ← hb.z]
    refine ⟨hb.x, rfl, ?_⟩
    split
    · exact hnext
    · exact toNat_setWidth_target (by omega) _
  · obtain ⟨hx, hz, hpc'⟩ := Block.commit_of_alu (b := b) hop
    rw [exec_decodeByte_of_alu hop, finishAlu_eq] at hexec
    cases hexec
    rw [hx, hz, hpc', Block.aluResult, hb.x]
    exact ⟨rfl, rfl, hnext⟩

include hin

/-- The counter does not wrap, so the block's budget check is the machine's. -/
theorem commit_counts (hle : s.cycles ≤ s.budget) :
    (b.commit inp).cycles.toNat = s.cycles + 1 ∧
    (b.commit inp).status = if s.cycles + 1 > s.budget then .haltedCycleLimit else s.status := by
  obtain ⟨_, hcntW⟩ := hw
  have hcount : (b.cycles + 1#cntW).toNat = s.cycles + 1 := by
    rw [toNat_add_one (by rw [hb.cycles]; omega), hb.cycles]
  refine ⟨hcount, ?_⟩
  simp only [Block.commit, BitVec.lt_def, hcount, hin.cycleBudget, hb.status, gt_iff_lt]

/-- An edge without reset, while the machine runs, holds the next state. -/
theorem edge_holds_step (hs : Inv s) (hrst : inp.rst = false) {t : State} (h : step s = .next t) :
    (b.edge inp).Holds t := by
  obtain ⟨hrun, hcases⟩ := step_cases h
  have hfetch : inp.imemLen ≤ b.pc ↔ s.imemLen ≤ s.pc := by rw [BitVec.le_def, hin.imemLen, hb.pc]
  rw [Block.edge_of_running hrst (hb.status.trans hrun)]
  obtain ⟨hpc, rfl⟩ | ⟨hpc, u, hexec, rfl⟩ := hcases
  · rw [if_pos (hfetch.mpr hpc)]
    exact ⟨hb.x, hb.z, hb.pc, hb.cycles, rfl⟩
  · rw [if_neg (mt hfetch.mp (Nat.not_le.mpr hpc)), retire_of_exec hrun hexec]
    rw [← hin.imemData hpc] at hexec
    obtain ⟨hx, hz, hpc'⟩ := commit_eq_exec hw hb hpc hexec
    obtain ⟨hcycles, hstatus⟩ := commit_counts hw hb hin (hs.withinBudget hrun)
    exact ⟨hx, hz, hpc', hcycles, hrun ▸ hstatus⟩

end

theorem Block.reset_holds_start (pcW cntW : Nat) (s : State) : (Block.reset pcW cntW).Holds s.start :=
  ⟨rfl, rfl, BitVec.toNat_ofNat _ _ |>.trans (Nat.zero_mod _), BitVec.toNat_ofNat _ _ |>.trans (Nat.zero_mod _), rfl⟩

/-- Settles O30: the edge's three cases, of which the executing one commits what the instruction and its retirement leave. -/
theorem clockedBlockRealisesStep : Obligations.ClockedBlockRealisesStep :=
  fun pcW cntW s _ _ hs hw hb hin =>
    ⟨fun hrst _ => edge_holds_step hw hb hin hs hrst,
      fun hrst hhalt => Block.edge_of_halted hrst (hb.status ▸ hhalt),
      fun hrst => Block.edge_of_rst hrst ▸ Block.reset_holds_start pcW cntW s⟩

end Sys2Proof.Machine
end

section
/-! PROOFS. Object files (30_encoding.md section 6, 60_exceptions.md sections 1 and 6). -/

namespace Sys2Proof.Machine

/-! ### A byte's line -/

theorem hexDigit_hexChar : ∀ n < 16, hexDigit (hexChar n) = some n := by
  decide

theorem hexChar_ne_lineFeed {n : Nat} (hn : n < 16) : hexChar n ≠ '\n' := by
  intro h
  have hnone : hexDigit '\n' = none := by decide
  rw [← h, hexDigit_hexChar n hn] at hnone
  cases hnone

theorem lineFeed_not_mem_renderByte (v : Byte) : '\n' ∉ renderByte v := by
  have hv := v.isLt
  have hhigh : hexChar (v.toNat / 16) ≠ '\n' := hexChar_ne_lineFeed (by omega)
  have hlow : hexChar (v.toNat % 16) ≠ '\n' := hexChar_ne_lineFeed (by omega)
  simp [renderByte, hhigh.symm, hlow.symm]

/-- Two digits write the byte's quotient and remainder by 16. -/
theorem parseByteLine_renderByte (v : Byte) : parseByteLine (renderByte v) = .ok v := by
  have hv := v.isLt
  have hvalue : hexValueFrom 0 (renderByte v) = some v.toNat := by
    rw [renderByte, hexValueFrom, hexDigit_hexChar _ (by omega)]
    simp only
    rw [hexValueFrom, hexDigit_hexChar _ (by omega)]
    simp only
    rw [hexValueFrom]
    congr 1
    omega
  rw [renderByte] at hvalue ⊢
  simp only [parseByteLine, hvalue]
  rw [if_pos (by omega), BitVec.ofNat_toNat, BitVec.setWidth_eq]

/-! ### The whole file -/

theorem parseObject_lines {lines : List Text} (h : ∀ line ∈ lines, '\n' ∉ line) :
    parseObject (lines.flatMap fun line => line ++ ['\n']) = parseObjectLines lines := by
  rw [parseObject, textLines_lines h]

theorem renderObject_eq_lines (program : List Byte) :
    renderObject program = (objectMarker :: program.map renderByte).flatMap fun line => line ++ ['\n'] := by
  rw [renderObject, List.flatMap_cons, List.flatMap_map, List.append_assoc, List.singleton_append]

/-- Settles O32: the file is the marker's line and a line a byte, none of which holds a line feed, and each line reads back. -/
theorem objectFileRoundTrip : Obligations.ObjectFileRoundTrip := by
  intro program
  have hlines : ∀ line ∈ objectMarker :: program.map renderByte, '\n' ∉ line := by
    rw [List.forall_mem_cons, List.forall_mem_map]
    exact ⟨by decide, fun v _ => lineFeed_not_mem_renderByte v⟩
  rw [renderObject_eq_lines, parseObject_lines hlines, parseObjectLines, collect_map parseByteLine_renderByte]

/-! ### A malformed line -/

theorem parseByteLine_error {line : Text} {e : LoadError} (h : parseByteLine line = .error e) :
    e = .malformedObjectByte := by
  unfold parseByteLine at h
  split at h
  · cases h
    rfl
  split at h
  · cases h
    rfl
  split at h <;> cases h
  rfl

/-- Where a function has one error only, a collection with an element that fails ends in it. -/
theorem collect_eq_error {α β ε : Type} {f : α → Except ε β} {e : ε} (honly : ∀ a e', f a = .error e' → e' = e)
    {l : List α} (hfail : ∃ a ∈ l, ∀ b, f a ≠ .ok b) : collect f l = .error e := by
  induction l with
  | nil =>
    obtain ⟨a, ha, _⟩ := hfail
    cases ha
  | cons a l ih =>
    rw [collect]
    cases hf : f a with
    | error e' => rw [honly a e' hf]
    | ok b =>
      obtain ⟨c, hc, hbad⟩ := hfail
      obtain rfl | hc := List.mem_cons.mp hc
      · exact absurd hf (hbad b)
      · simp only [ih ⟨c, hc, hbad⟩]

theorem hostRun_of_error {file : Text} {e : LoadError} (h : parseObject file = .error e) (debug : Bool)
    (budget : Nat) : State.hostRun debug file budget = .error e := by
  rw [State.hostRun, h]

/-- Settles O33: the loader's only error after the marker is the malformed byte, and a file that does not load gives no run. -/
theorem malformedObjectLineGivesNoRun : Obligations.MalformedObjectLineGivesNoRun := by
  intro marker bad before after debug budget hlines hbad
  have hparse : parseObjectLines (marker :: before ++ bad :: after) = .error .malformedObjectByte :=
    collect_eq_error (fun _ _ => parseByteLine_error)
      ⟨bad, List.mem_append_right before List.mem_cons_self, hbad⟩
  rw [hostRun_of_error ((parseObject_lines hlines).trans hparse)]
  exact ⟨rfl, rfl⟩

end Sys2Proof.Machine
end

section
/-! PROOFS. The assembler's errors, labels and addresses (30_encoding.md section 5). -/

namespace Sys2Proof.Machine

/-- Settles O35: the comma is looked for before the tokens are; the rule's example, one line, evaluates to the same error. -/
theorem commaIsRejected : Obligations.CommaIsRejected :=
  ⟨fun _ _ hcomma => if_pos hcomma, rfl⟩

theorem map_toLower_of_mem_validMnemonics {mnemonic : Text} (h : mnemonic ∈ validMnemonics) :
    mnemonic.map Char.toLower = mnemonic := by
  revert mnemonic
  decide

theorem assembleLine_of_lower_not_valid {labels : LabelTable} {n : Nat} {line : SourceLine}
    (h : line.mnemonic.map Char.toLower ∉ validMnemonics) :
    assembleLine labels n line = .error (.unknownMnemonic validMnemonics) := by
  have hne : ∀ mnemonic ∈ validMnemonics, line.mnemonic ≠ mnemonic := by
    rintro mnemonic hm rfl
    rw [map_toLower_of_mem_validMnemonics hm] at h
    exact h hm
  rw [assembleLine, if_neg (hne _ (by decide)), if_neg (hne _ (by decide)), if_neg (hne _ (by decide)),
    if_neg (hne _ (by decide)), if_neg (mt List.contains_iff_mem.mp h)]

/-- Settles O41: the four valid mnemonics are lower case, so the line's mnemonic is none of them. -/
theorem unknownMnemonicNamesValidSet : Obligations.UnknownMnemonicNamesValidSet :=
  fun _ _ _ => assembleLine_of_lower_not_valid

/-! ### Labels -/

/-- The table binds the lines' labels, in their order. -/
theorem labelTable_names (lines : List SourceLine) :
    ∀ base : Nat, (labelTable base lines).map Prod.fst = lines.filterMap SourceLine.label := by
  induction lines with
  | nil => exact fun _ => rfl
  | cons line lines ih =>
    intro base
    rw [labelTable]
    cases hlabel : line.label with
    | none => rw [List.filterMap_cons_none hlabel, ← ih (base + 1)]
    | some name => rw [List.filterMap_cons_some hlabel, ← ih (base + 1), List.map_cons]

/-- A label of some line is bound. -/
theorem labelTable_lookup_isSome {lines : List SourceLine} {line : SourceLine} {name : Text} (hmem : line ∈ lines)
    (hlabel : line.label = some name) (base : Nat) : ((labelTable base lines).lookup name).isSome := by
  have hname : name ∈ (labelTable base lines).map Prod.fst := by
    rw [labelTable_names]
    exact List.mem_filterMap.mpr ⟨line, hmem, hlabel⟩
  obtain ⟨p, hp, rfl⟩ := List.mem_map.mp hname
  exact List.lookup_isSome_iff.mpr ⟨p, hp, beq_self_eq_true _⟩

theorem labelTable_lookup_of_unique {lines : List SourceLine} {name : Text} {a : Nat} {line : SourceLine}
    (hline : lines[a]? = some line) (hlabel : line.label = some name)
    (hunique : ∀ (k : Nat) (other : SourceLine), lines[k]? = some other → other.label = some name → k = a) :
    (labelTable 0 lines).lookup name = some a := by
  obtain ⟨k, hk⟩ := Option.isSome_iff_exists.mp
    (labelTable_lookup_isSome (List.mem_of_getElem? hline) hlabel 0)
  obtain ⟨_, other, hother, hlabel'⟩ := labelTable_lookup lines 0 name k hk
  rw [hk, hunique k other hother hlabel']

theorem assembleLines_of_duplicate {lines : List SourceLine} {name : Text} {j k : Nat} {first second : SourceLine}
    (hjk : j < k) (hj : lines[j]? = some first) (hk : lines[k]? = some second)
    (hfirst : first.label = some name) (hsecond : second.label = some name) :
    assembleLines lines = .error .duplicateLabel := by
  refine if_neg fun hnodup => ?_
  rw [labelTable_names, List.Nodup, List.pairwise_filterMap, List.pairwise_iff_getElem] at hnodup
  obtain ⟨hjlen, rfl⟩ := List.getElem?_eq_some_iff.mp hj
  obtain ⟨hklen, rfl⟩ := List.getElem?_eq_some_iff.mp hk
  exact hnodup j k hjlen hklen hjk name hfirst name hsecond rfl

/-- Settles O36: the table binds the lines' labels in order, and branchTo checks the address it finds. -/
theorem labelsNameTheirInstructions : Obligations.LabelsNameTheirInstructions := by
  refine ⟨fun lines name a h => (labelTable_lookup lines 0 name a h).2,
    fun _ _ _ _ => labelTable_lookup_of_unique,
    fun _ _ _ _ _ _ => assembleLines_of_duplicate,
    fun labels n name h => ?_, fun _ _ _ _ => branchTo_of_lookup⟩
  rw [branchTo, h]

/-! ### Addresses -/

/-- The results of a collection that succeeds stand beside its elements. -/
theorem collect_forall₂ {α β ε : Type} {f : α → Except ε β} {l : List α} {r : List β} (h : collect f l = .ok r) :
    List.Forall₂ (fun a b => f a = .ok b) l r := by
  induction l generalizing r with
  | nil =>
    cases h
    exact .nil
  | cons a l ih =>
    rw [collect] at h
    split at h
    · cases h
    next b hb =>
    split at h
    · cases h
    next bs hbs =>
    cases h
    exact .cons hb (ih hbs)

/-- A line with something other than blanks before its comment (30_encoding.md R80, R85). -/
def holdsInstruction (line : Text) : Bool := decide (trimText (line.takeWhile (· ≠ ';')) ≠ [])

theorem except_map_some_isSome {e : Except AsmError SourceLine} {r : Option SourceLine} (h : e.map some = .ok r) :
    r.isSome = true := by
  cases e with
  | error _ => cases h
  | ok line =>
    cases h
    rfl

theorem readLine_isSome {line : Text} {r : Option SourceLine} (h : readLine line = .ok r) :
    r.isSome = holdsInstruction line := by
  unfold readLine at h
  dsimp only at h
  split at h
  · next hblank =>
    cases h
    exact (decide_eq_false (not_not.mpr hblank)).symm
  next hcode =>
  rw [holdsInstruction, decide_eq_true hcode]
  split at h
  · split at h
    · exact except_map_some_isSome h
    · cases h
  · exact except_map_some_isSome h

theorem readLines_length {texts : List Text} {read : List (Option SourceLine)}
    (h : List.Forall₂ (fun line r => readLine line = .ok r) texts read) :
    (read.filterMap id).length = (texts.filter holdsInstruction).length := by
  induction h with
  | nil => rfl
  | @cons line r _ _ hline _ ih =>
    have hsome := readLine_isSome hline
    cases r with
    | none => rw [List.filterMap_cons_none rfl, List.filter_cons_of_neg (by simp [← hsome]), ih]
    | some l =>
      rw [List.filterMap_cons_some (f := id) (a := some l) rfl, List.filter_cons_of_pos hsome.symm,
        List.length_cons, List.length_cons, ih]

theorem sourceLines_length {source : Text} {lines : List SourceLine} (h : sourceLines source = .ok lines) :
    lines.length = ((textLines source).filter holdsInstruction).length := by
  unfold sourceLines at h
  split at h
  · cases h
  next read hread =>
  cases h
  exact readLines_length (collect_forall₂ hread)

theorem assembleLines_length {lines : List SourceLine} {instrs : List Instr} (h : assembleLines lines = .ok instrs) :
    instrs.length = lines.length := by
  unfold assembleLines at h
  dsimp only at h
  split at h
  · exact (collect_ok _ _ _ h).1
  · cases h

/-- Settles O38: each instruction is one byte of the program, and the source lines are those that are read as instructions. -/
theorem assembledLengthCountsLines : Obligations.AssembledLengthCountsLines := by
  intro source program h
  unfold assembleProgram assemble at h
  split at h
  · cases h
  next lines hlines =>
  cases hinstrs : assembleLines lines with
  | error e =>
    rw [hinstrs] at h
    cases h
  | ok instrs =>
    rw [hinstrs] at h
    cases h
    rw [List.length_map, assembleLines_length hinstrs, sourceLines_length hlines]
    rfl

end Sys2Proof.Machine
end

section
/-! PROOFS. UTF-8: a source file's bytes and its text (30_encoding.md R80; the standard's form, log 21). -/

namespace Sys2Proof.Machine

/-! ### Continuation bytes -/

/-- The last n bytes of a character of several: six bits each, the highest first. -/
def continuationBytes : Nat → Nat → List Byte
  | 0, _ => []
  | n + 1, value => BitVec.ofNat 8 (0x80 + value / 64 ^ n % 64) :: continuationBytes n value

theorem ofNat_toNat_of_lt {n : Nat} (h : n < 256) : (BitVec.ofNat 8 n).toNat = n := by
  rw [BitVec.toNat_ofNat, Nat.mod_eq_of_lt h]

theorem continuationByte_toNat (v : Nat) : (BitVec.ofNat 8 (0x80 + v % 64)).toNat = 0x80 + v % 64 :=
  ofNat_toNat_of_lt (by omega)

/-- Six more bits of a value, after those above them. -/
theorem div_pow_succ_mul_add (value n : Nat) :
    value / 64 ^ (n + 1) * 64 + (0x80 + value / 64 ^ n % 64) % 64 = value / 64 ^ n := by
  rw [Nat.pow_succ, ← Nat.div_div_eq_div_mul]
  omega

/-! ### One byte of the decoder -/

section
variable {byte : Byte} {value least : Nat} (rest : List Byte)

theorem utf8From_continue (h : isContinuation byte.toNat = true) (n : Nat) :
    utf8From (n + 2) value least (byte :: rest) = utf8From (n + 1) (value * 64 + byte.toNat % 64) least rest := by
  rw [utf8From, if_pos h]

theorem utf8From_last (h : isContinuation byte.toNat = true) :
    utf8From 1 value least (byte :: rest) =
      consChar (utf8Char least (value * 64 + byte.toNat % 64)) (utf8Decode rest) := by
  rw [utf8From, if_pos h, utf8Decode]

theorem utf8Decode_single (h : utf8Lead byte.toNat = some (0, value, least)) :
    utf8Decode (byte :: rest) = consChar (utf8Char least value) (utf8Decode rest) := by
  rw [utf8Decode, utf8From]
  simp only [h]
  rfl

theorem utf8Decode_lead {n : Nat} (h : utf8Lead byte.toNat = some (n + 1, value, least)) :
    utf8Decode (byte :: rest) = utf8From (n + 1) value least rest := by
  rw [utf8Decode, utf8From]
  simp only [h]

end

/-! ### A character's continuation bytes, decoded -/

theorem isContinuation_continuationByte (v : Nat) :
    isContinuation (BitVec.ofNat 8 (0x80 + v % 64)).toNat = true := by
  rw [continuationByte_toNat]
  exact decide_eq_true (by omega)

/-- The decoder gathers the six bits of each continuation byte. -/
theorem utf8From_continuationBytes (least value : Nat) (rest : List Byte) (n : Nat) :
    utf8From (n + 1) (value / 64 ^ (n + 1)) least (continuationBytes (n + 1) value ++ rest) =
      consChar (utf8Char least value) (utf8Decode rest) := by
  have hcont := isContinuation_continuationByte (value / 64 ^ n)
  induction n with
  | zero =>
    rw [continuationBytes, List.cons_append, utf8From_last _ hcont, continuationByte_toNat, div_pow_succ_mul_add,
      continuationBytes, pow_zero, Nat.div_one, List.nil_append]
  | succ n ih =>
    rw [continuationBytes, List.cons_append, utf8From_continue _ hcont, continuationByte_toNat, div_pow_succ_mul_add,
      ih (isContinuation_continuationByte _)]

/-! ### The continuation bytes the decoder accepts -/

/-- A continuation byte is determined by the six bits it gives. -/
theorem eq_continuationByte {byte : Byte} (h : isContinuation byte.toNat = true) (value : Nat) :
    byte = BitVec.ofNat 8 (0x80 + (value * 64 + byte.toNat % 64) % 64) := by
  have hrange : 0x80 ≤ byte.toNat ∧ byte.toNat < 0xC0 := of_decide_eq_true h
  apply BitVec.eq_of_toNat_eq
  rw [continuationByte_toNat]
  omega

theorem utf8From_of_not_continuation {byte : Byte} (h : ¬ isContinuation byte.toNat = true) (n value least : Nat)
    (rest : List Byte) : utf8From (n + 1) value least (byte :: rest) = none := by
  cases n with
  | zero => rw [utf8From, if_neg h]
  | succ n => rw [utf8From, if_neg h]

/-- Bytes outstanding are there, and each is a continuation byte. -/
theorem utf8From_succ_eq_some {n value least : Nat} {bytes : List Byte} {t : Text}
    (h : utf8From (n + 1) value least bytes = some t) :
    ∃ (byte : Byte) (rest : List Byte), bytes = byte :: rest ∧ isContinuation byte.toNat = true := by
  cases bytes with
  | nil => cases h
  | cons byte rest =>
    refine ⟨byte, rest, rfl, not_not.mp fun hcont => ?_⟩
    rw [utf8From_of_not_continuation hcont] at h
    cases h

/-- A character put before a decoded text: the character of the value gathered, which needed its bytes. -/
theorem consChar_utf8Char_eq_some {least value : Nat} {rest : List Byte} {t : Text}
    (h : consChar (utf8Char least value) (utf8Decode rest) = some t) :
    ∃ (c : Char) (u : Text), t = c :: u ∧ utf8Decode rest = some u ∧ c.toNat = value ∧ least ≤ c.toNat := by
  obtain ⟨c, u, hchar, hrest, rfl⟩ := consChar_eq_some h
  obtain ⟨rfl, hleast, _⟩ := utf8Char_eq_some hchar
  exact ⟨c, u, rfl, hrest, rfl, hleast⟩

/-- With n + 1 bytes outstanding the decoder accepts a character's continuation bytes, its other bits being those gathered. -/
theorem utf8From_eq_some {n value least : Nat} {bytes : List Byte} {t : Text}
    (h : utf8From (n + 1) value least bytes = some t) :
    ∃ (c : Char) (u : Text) (rest : List Byte), t = c :: u ∧ utf8Decode rest = some u ∧
      bytes = continuationBytes (n + 1) c.toNat ++ rest ∧ c.toNat / 64 ^ (n + 1) = value ∧ least ≤ c.toNat := by
  obtain ⟨byte, rest, rfl, hcont⟩ := utf8From_succ_eq_some h
  have hbyte := eq_continuationByte hcont value
  induction n generalizing value byte rest with
  | zero =>
    rw [utf8From_last _ hcont] at h
    obtain ⟨c, u, rfl, hrest, hc, hleast⟩ := consChar_utf8Char_eq_some h
    refine ⟨c, u, rest, rfl, hrest, ?_, by omega, hleast⟩
    rw [continuationBytes, continuationBytes, pow_zero, Nat.div_one, hc, ← hbyte, List.singleton_append]
  | succ n ih =>
    rw [utf8From_continue _ hcont] at h
    obtain ⟨next, rest', rfl, hcont'⟩ := utf8From_succ_eq_some h
    obtain ⟨c, u, tail, rfl, htail, hbytes, hc, hleast⟩ := ih next rest' hcont' h (eq_continuationByte hcont' _)
    refine ⟨c, u, tail, rfl, htail, ?_, ?_, hleast⟩
    · rw [continuationBytes, hc, ← hbyte, hbytes, List.cons_append]
    · rw [Nat.pow_succ, ← Nat.div_div_eq_div_mul, hc]
      omega

/-! ### First bytes -/

/-- What a first byte says, by the four lengths. -/
theorem utf8Lead_eq_some {b n value least : Nat} (h : utf8Lead b = some (n, value, least)) :
    (b < 0x80 ∧ n = 0 ∧ value = b ∧ least = 0) ∨
    ((0xC0 ≤ b ∧ b < 0xE0) ∧ n = 1 ∧ value = b - 0xC0 ∧ least = 0x80) ∨
    ((0xE0 ≤ b ∧ b < 0xF0) ∧ n = 2 ∧ value = b - 0xE0 ∧ least = 0x800) ∨
    ((0xF0 ≤ b ∧ b < 0xF8) ∧ n = 3 ∧ value = b - 0xF0 ∧ least = 0x10000) := by
  unfold utf8Lead at h
  split_ifs at h <;> simp only [Option.some.injEq, Prod.mk.injEq] at h <;> omega

theorem utf8Lead_one {v : Nat} (h : v < 0x80) : utf8Lead v = some (0, v, 0) := if_pos h

theorem utf8Lead_two {v : Nat} (h : v < 0x20) : utf8Lead (0xC0 + v) = some (1, v, 0x80) := by
  rw [utf8Lead, if_neg (by omega), if_neg (by omega), if_pos (by omega), Nat.add_sub_cancel_left]

theorem utf8Lead_three {v : Nat} (h : v < 0x10) : utf8Lead (0xE0 + v) = some (2, v, 0x800) := by
  rw [utf8Lead, if_neg (by omega), if_neg (by omega), if_neg (by omega), if_pos (by omega), Nat.add_sub_cancel_left]

theorem utf8Lead_four {v : Nat} (h : v < 0x08) : utf8Lead (0xF0 + v) = some (3, v, 0x10000) := by
  rw [utf8Lead, if_neg (by omega), if_neg (by omega), if_neg (by omega), if_neg (by omega), if_pos (by omega),
    Nat.add_sub_cancel_left]

/-! ### A whole character -/

section
variable {c : Char}

theorem utf8EncodeChar_one (h : c.toNat < 0x80) :
    utf8EncodeChar c = BitVec.ofNat 8 c.toNat :: continuationBytes 0 c.toNat :=
  if_pos h

theorem utf8EncodeChar_two (hlow : 0x80 ≤ c.toNat) (hhigh : c.toNat < 0x800) :
    utf8EncodeChar c = BitVec.ofNat 8 (0xC0 + c.toNat / 64 ^ 1) :: continuationBytes 1 c.toNat := by
  rw [utf8EncodeChar, if_neg (by omega), if_pos hhigh]
  simp [continuationBytes]

theorem utf8EncodeChar_three (hlow : 0x800 ≤ c.toNat) (hhigh : c.toNat < 0x10000) :
    utf8EncodeChar c = BitVec.ofNat 8 (0xE0 + c.toNat / 64 ^ 2) :: continuationBytes 2 c.toNat := by
  rw [utf8EncodeChar, if_neg (by omega), if_neg (by omega), if_pos hhigh]
  simp [continuationBytes]

theorem utf8EncodeChar_four (hlow : 0x10000 ≤ c.toNat) :
    utf8EncodeChar c = BitVec.ofNat 8 (0xF0 + c.toNat / 64 ^ 3) :: continuationBytes 3 c.toNat := by
  rw [utf8EncodeChar, if_neg (by omega), if_neg (by omega), if_neg (by omega)]
  simp [continuationBytes]

end

theorem toNat_lt_0x110000 (c : Char) : c.toNat < 0x110000 := by
  have hvalid : c.toNat.isValidChar := c.valid
  unfold Nat.isValidChar at hvalid
  omega

/-- The first byte of every character, and what the decoder reads from it. -/
theorem utf8EncodeChar_eq (c : Char) :
    ∃ (byte : Byte) (n least : Nat), utf8EncodeChar c = byte :: continuationBytes n c.toNat ∧
      utf8Lead byte.toNat = some (n, c.toNat / 64 ^ n, least) ∧ least ≤ c.toNat := by
  have hc := toNat_lt_0x110000 c
  by_cases h1 : c.toNat < 0x80
  · refine ⟨_, 0, 0, utf8EncodeChar_one h1, ?_, Nat.zero_le _⟩
    rw [ofNat_toNat_of_lt (by omega), utf8Lead_one h1, pow_zero, Nat.div_one]
  by_cases h2 : c.toNat < 0x800
  · refine ⟨_, 1, 0x80, utf8EncodeChar_two (by omega) h2, ?_, by omega⟩
    rw [ofNat_toNat_of_lt (by omega), utf8Lead_two (by omega)]
  by_cases h3 : c.toNat < 0x10000
  · refine ⟨_, 2, 0x800, utf8EncodeChar_three (by omega) h3, ?_, by omega⟩
    rw [ofNat_toNat_of_lt (by omega), utf8Lead_three (by omega)]
  · refine ⟨_, 3, 0x10000, utf8EncodeChar_four (by omega), ?_, by omega⟩
    rw [ofNat_toNat_of_lt (by omega), utf8Lead_four (by omega)]

/-- A first byte with a character's bits, of the least length, is the character's. -/
theorem utf8EncodeChar_of_lead {byte : Byte} {n least : Nat} {c : Char}
    (h : utf8Lead byte.toNat = some (n, c.toNat / 64 ^ n, least)) (hleast : least ≤ c.toNat) :
    utf8EncodeChar c = byte :: continuationBytes n c.toNat := by
  have hbyte {v : Nat} (hv : v = byte.toNat) : BitVec.ofNat 8 v = byte := by
    rw [hv, BitVec.ofNat_toNat, BitVec.setWidth_eq]
  obtain ⟨hb, rfl, hv, rfl⟩ | ⟨hb, rfl, hv, rfl⟩ | ⟨hb, rfl, hv, rfl⟩ | ⟨hb, rfl, hv, rfl⟩ := utf8Lead_eq_some h
  · rw [pow_zero, Nat.div_one] at hv
    rw [utf8EncodeChar_one (by omega), hbyte hv]
  · rw [utf8EncodeChar_two hleast (by omega), hbyte (by omega)]
  · rw [utf8EncodeChar_three hleast (by omega), hbyte (by omega)]
  · rw [utf8EncodeChar_four hleast, hbyte (by omega)]

theorem utf8Decode_utf8EncodeChar (c : Char) (rest : List Byte) :
    utf8Decode (utf8EncodeChar c ++ rest) = consChar (some c) (utf8Decode rest) := by
  obtain ⟨byte, n, least, henc, hlead, hleast⟩ := utf8EncodeChar_eq c
  rw [henc, List.cons_append]
  cases n with
  | zero =>
    rw [pow_zero, Nat.div_one] at hlead
    rw [utf8Decode_single _ hlead, utf8Char_toNat hleast, continuationBytes, List.nil_append]
  | succ n => rw [utf8Decode_lead _ hlead, utf8From_continuationBytes, utf8Char_toNat hleast]

/-- Bytes that decode to a text begin with its first character's encoding, so there is no longer form of it. -/
theorem utf8Decode_cons_eq_some {byte : Byte} {bytes : List Byte} {t : Text} (h : utf8Decode (byte :: bytes) = some t) :
    ∃ (c : Char) (u : Text) (rest : List Byte), t = c :: u ∧ utf8Decode rest = some u ∧
      byte :: bytes = utf8EncodeChar c ++ rest := by
  cases hlead : utf8Lead byte.toNat with
  | none => simp [utf8Decode, utf8From, hlead] at h
  | some lead =>
    obtain ⟨n, value, least⟩ := lead
    cases n with
    | zero =>
      rw [utf8Decode_single _ hlead] at h
      obtain ⟨c, u, rfl, hrest, rfl, hleast⟩ := consChar_utf8Char_eq_some h
      rw [← Nat.div_one c.toNat, ← pow_zero 64] at hlead
      exact ⟨c, u, bytes, rfl, hrest, by rw [utf8EncodeChar_of_lead hlead hleast]; rfl⟩
    | succ n =>
      rw [utf8Decode_lead _ hlead] at h
      obtain ⟨c, u, rest, rfl, hrest, rfl, rfl, hleast⟩ := utf8From_eq_some h
      exact ⟨c, u, rest, rfl, hrest, by rw [utf8EncodeChar_of_lead hlead hleast, List.cons_append]⟩

/-! ### Texts and files -/

theorem utf8Decode_utf8Encode (t : Text) : utf8Decode (utf8Encode t) = some t := by
  induction t with
  | nil => rfl
  | cons c t ih =>
    rw [utf8Encode, List.flatMap_cons, utf8Decode_utf8EncodeChar, ← utf8Encode, ih, consChar]

theorem assembleFile_of_decode {file : List Byte} {source : Text} (h : utf8Decode file = some source) :
    assembleFile file = assembleProgram source := by
  rw [assembleFile, h]

/-- Settles O39: each character is read back from its bytes, and the file's bytes are decoded before anything is assembled. -/
theorem sourceFileIsUtf8Text : Obligations.SourceFileIsUtf8Text := by
  refine ⟨fun source => ?_, fun file h => ?_⟩
  · have hdecode := utf8Decode_utf8Encode source
    exact ⟨hdecode, assembleFile_of_decode hdecode⟩
  · rw [assembleFile, h]

/-- Settles O40: by induction over the text, each character of which takes its own encoding off the bytes. -/
theorem onlyEncodingsDecodeAsUtf8 : Obligations.OnlyEncodingsDecodeAsUtf8 := by
  intro file source h
  induction source generalizing file with
  | nil =>
    cases file with
    | nil => rfl
    | cons byte bytes =>
      obtain ⟨_, _, _, hnil, _⟩ := utf8Decode_cons_eq_some h
      cases hnil
  | cons c source ih =>
    cases file with
    | nil => cases h
    | cons byte bytes =>
      obtain ⟨_, _, rest, hcons, hrest, hbytes⟩ := utf8Decode_cons_eq_some h
      cases hcons
      rw [hbytes, ← ih rest hrest]
      rfl

end Sys2Proof.Machine
end
